-- ==== Sys2Proof/Word.lean ====
section
/-! DEFINITION. The word, the byte and the small bit-field types of the machine (spec/00_scope.md R5, R7). -/

namespace Sys2Proof

/-- A register, an address, an instruction word or an ALU value: 32 bits (R5, R7). -/
abbrev Word := BitVec 32

/-- The addressable unit of memory: 8 bits (R5). -/
abbrev Byte := BitVec 8

/-- A register index: 5 bits, so every index is 0 to 31 (R13; R194: "A model should type register indices as
5-bit values"). -/
abbrev RegIdx := BitVec 5

/-- The amount of an immediate shift: 5 bits, 0 to 31 (R66). -/
abbrev Shamt := BitVec 5

end Sys2Proof
end

