-- ==== Sys2Proof/Syntax.lean ====
section
/-! DEFINITION. The Decoded Instruction (spec/30_encoding.md R76): one constructor per row of spec/opcode_table.json,
"each carrying only the operand fields its semantics require". -/

namespace Sys2Proof

/-- The 23 instructions (R2, R76). `imm` is the 32-bit value the decoder delivers: sign-extended for the I-type
(R64), already shifted for the U-type (R65). -/
inductive Instr
  | lui   (rd : RegIdx) (imm : Word)
  | auipc (rd : RegIdx) (imm : Word)
  | addi  (rd rs1 : RegIdx) (imm : Word)
  | slti  (rd rs1 : RegIdx) (imm : Word)
  | sltiu (rd rs1 : RegIdx) (imm : Word)
  | xori  (rd rs1 : RegIdx) (imm : Word)
  | ori   (rd rs1 : RegIdx) (imm : Word)
  | andi  (rd rs1 : RegIdx) (imm : Word)
  | slli  (rd rs1 : RegIdx) (shamt : Shamt)
  | srli  (rd rs1 : RegIdx) (shamt : Shamt)
  | srai  (rd rs1 : RegIdx) (shamt : Shamt)
  | add   (rd rs1 rs2 : RegIdx)
  | sub   (rd rs1 rs2 : RegIdx)
  | sll   (rd rs1 rs2 : RegIdx)
  | slt   (rd rs1 rs2 : RegIdx)
  | sltu  (rd rs1 rs2 : RegIdx)
  | xor   (rd rs1 rs2 : RegIdx)
  | srl   (rd rs1 rs2 : RegIdx)
  | sra   (rd rs1 rs2 : RegIdx)
  | or    (rd rs1 rs2 : RegIdx)
  | and   (rd rs1 rs2 : RegIdx)
  | jalr  (rd rs1 : RegIdx) (imm : Word)
  | fence
deriving DecidableEq, Repr

namespace Instr

/-- The row's mnemonic, as spec/opcode_table.json spells it. -/
def mnemonic : Instr → String
  | .lui _ _ => "LUI"
  | .auipc _ _ => "AUIPC"
  | .addi _ _ _ => "ADDI"
  | .slti _ _ _ => "SLTI"
  | .sltiu _ _ _ => "SLTIU"
  | .xori _ _ _ => "XORI"
  | .ori _ _ _ => "ORI"
  | .andi _ _ _ => "ANDI"
  | .slli _ _ _ => "SLLI"
  | .srli _ _ _ => "SRLI"
  | .srai _ _ _ => "SRAI"
  | .add _ _ _ => "ADD"
  | .sub _ _ _ => "SUB"
  | .sll _ _ _ => "SLL"
  | .slt _ _ _ => "SLT"
  | .sltu _ _ _ => "SLTU"
  | .xor _ _ _ => "XOR"
  | .srl _ _ _ => "SRL"
  | .sra _ _ _ => "SRA"
  | .or _ _ _ => "OR"
  | .and _ _ _ => "AND"
  | .jalr _ _ _ => "JALR"
  | .fence => "FENCE"

/-- The destination register: every instruction but FENCE has one (10_state.md section 2). -/
def rd? : Instr → Option RegIdx
  | .lui rd _ => some rd
  | .auipc rd _ => some rd
  | .addi rd _ _ => some rd
  | .slti rd _ _ => some rd
  | .sltiu rd _ _ => some rd
  | .xori rd _ _ => some rd
  | .ori rd _ _ => some rd
  | .andi rd _ _ => some rd
  | .slli rd _ _ => some rd
  | .srli rd _ _ => some rd
  | .srai rd _ _ => some rd
  | .add rd _ _ => some rd
  | .sub rd _ _ => some rd
  | .sll rd _ _ => some rd
  | .slt rd _ _ => some rd
  | .sltu rd _ _ => some rd
  | .xor rd _ _ => some rd
  | .srl rd _ _ => some rd
  | .sra rd _ _ => some rd
  | .or rd _ _ => some rd
  | .and rd _ _ => some rd
  | .jalr rd _ _ => some rd
  | .fence => none

/-- The first source register: all but LUI, AUIPC and FENCE have one (10_state.md section 2). -/
def rs1? : Instr → Option RegIdx
  | .lui _ _ => none
  | .auipc _ _ => none
  | .addi _ rs1 _ => some rs1
  | .slti _ rs1 _ => some rs1
  | .sltiu _ rs1 _ => some rs1
  | .xori _ rs1 _ => some rs1
  | .ori _ rs1 _ => some rs1
  | .andi _ rs1 _ => some rs1
  | .slli _ rs1 _ => some rs1
  | .srli _ rs1 _ => some rs1
  | .srai _ rs1 _ => some rs1
  | .add _ rs1 _ => some rs1
  | .sub _ rs1 _ => some rs1
  | .sll _ rs1 _ => some rs1
  | .slt _ rs1 _ => some rs1
  | .sltu _ rs1 _ => some rs1
  | .xor _ rs1 _ => some rs1
  | .srl _ rs1 _ => some rs1
  | .sra _ rs1 _ => some rs1
  | .or _ rs1 _ => some rs1
  | .and _ rs1 _ => some rs1
  | .jalr _ rs1 _ => some rs1
  | .fence => none

/-- The second source register: the ten register-register instructions only (10_state.md section 2). -/
def rs2? : Instr → Option RegIdx
  | .lui _ _ => none
  | .auipc _ _ => none
  | .addi _ _ _ => none
  | .slti _ _ _ => none
  | .sltiu _ _ _ => none
  | .xori _ _ _ => none
  | .ori _ _ _ => none
  | .andi _ _ _ => none
  | .slli _ _ _ => none
  | .srli _ _ _ => none
  | .srai _ _ _ => none
  | .add _ _ rs2 => some rs2
  | .sub _ _ rs2 => some rs2
  | .sll _ _ rs2 => some rs2
  | .slt _ _ rs2 => some rs2
  | .sltu _ _ rs2 => some rs2
  | .xor _ _ rs2 => some rs2
  | .srl _ _ rs2 => some rs2
  | .sra _ _ rs2 => some rs2
  | .or _ _ rs2 => some rs2
  | .and _ _ rs2 => some rs2
  | .jalr _ _ _ => none
  | .fence => none

/-- The I-type immediate (R64), of the seven instructions that have one. -/
def immI? : Instr → Option Word
  | .lui _ _ => none
  | .auipc _ _ => none
  | .addi _ _ imm => some imm
  | .slti _ _ imm => some imm
  | .sltiu _ _ imm => some imm
  | .xori _ _ imm => some imm
  | .ori _ _ imm => some imm
  | .andi _ _ imm => some imm
  | .slli _ _ _ => none
  | .srli _ _ _ => none
  | .srai _ _ _ => none
  | .add _ _ _ => none
  | .sub _ _ _ => none
  | .sll _ _ _ => none
  | .slt _ _ _ => none
  | .sltu _ _ _ => none
  | .xor _ _ _ => none
  | .srl _ _ _ => none
  | .sra _ _ _ => none
  | .or _ _ _ => none
  | .and _ _ _ => none
  | .jalr _ _ imm => some imm
  | .fence => none

/-- The U-type immediate (R65), of LUI and AUIPC. -/
def immU? : Instr → Option Word
  | .lui _ imm => some imm
  | .auipc _ imm => some imm
  | .addi _ _ _ => none
  | .slti _ _ _ => none
  | .sltiu _ _ _ => none
  | .xori _ _ _ => none
  | .ori _ _ _ => none
  | .andi _ _ _ => none
  | .slli _ _ _ => none
  | .srli _ _ _ => none
  | .srai _ _ _ => none
  | .add _ _ _ => none
  | .sub _ _ _ => none
  | .sll _ _ _ => none
  | .slt _ _ _ => none
  | .sltu _ _ _ => none
  | .xor _ _ _ => none
  | .srl _ _ _ => none
  | .sra _ _ _ => none
  | .or _ _ _ => none
  | .and _ _ _ => none
  | .jalr _ _ _ => none
  | .fence => none

/-- The shift amount (R66), of the three immediate shifts. -/
def shamt? : Instr → Option Shamt
  | .lui _ _ => none
  | .auipc _ _ => none
  | .addi _ _ _ => none
  | .slti _ _ _ => none
  | .sltiu _ _ _ => none
  | .xori _ _ _ => none
  | .ori _ _ _ => none
  | .andi _ _ _ => none
  | .slli _ _ shamt => some shamt
  | .srli _ _ shamt => some shamt
  | .srai _ _ shamt => some shamt
  | .add _ _ _ => none
  | .sub _ _ _ => none
  | .sll _ _ _ => none
  | .slt _ _ _ => none
  | .sltu _ _ _ => none
  | .xor _ _ _ => none
  | .srl _ _ _ => none
  | .sra _ _ _ => none
  | .or _ _ _ => none
  | .and _ _ _ => none
  | .jalr _ _ _ => none
  | .fence => none

/-- The same instruction with another destination register (FENCE has none and stays as it is). -/
def withRd (rd : RegIdx) : Instr → Instr
  | .lui _ imm => .lui rd imm
  | .auipc _ imm => .auipc rd imm
  | .addi _ rs1 imm => .addi rd rs1 imm
  | .slti _ rs1 imm => .slti rd rs1 imm
  | .sltiu _ rs1 imm => .sltiu rd rs1 imm
  | .xori _ rs1 imm => .xori rd rs1 imm
  | .ori _ rs1 imm => .ori rd rs1 imm
  | .andi _ rs1 imm => .andi rd rs1 imm
  | .slli _ rs1 shamt => .slli rd rs1 shamt
  | .srli _ rs1 shamt => .srli rd rs1 shamt
  | .srai _ rs1 shamt => .srai rd rs1 shamt
  | .add _ rs1 rs2 => .add rd rs1 rs2
  | .sub _ rs1 rs2 => .sub rd rs1 rs2
  | .sll _ rs1 rs2 => .sll rd rs1 rs2
  | .slt _ rs1 rs2 => .slt rd rs1 rs2
  | .sltu _ rs1 rs2 => .sltu rd rs1 rs2
  | .xor _ rs1 rs2 => .xor rd rs1 rs2
  | .srl _ rs1 rs2 => .srl rd rs1 rs2
  | .sra _ rs1 rs2 => .sra rd rs1 rs2
  | .or _ rs1 rs2 => .or rd rs1 rs2
  | .and _ rs1 rs2 => .and rd rs1 rs2
  | .jalr _ rs1 imm => .jalr rd rs1 imm
  | .fence => .fence

end Instr

end Sys2Proof
end

