-- ==== Sys2Proof/WellFormed.lean ====
section
/-! DEFINITION. Well-formed instructions (spec/30_encoding.md R76, R81): the immediate is representable in the field
it is encoded in. A register index and a shift amount are 5 bits by their type, so nothing is to check there. -/

namespace Sys2Proof

/-- `imm` is an I-type immediate: the sign extension of its own low 12 bits, -2048 to 2047 (R64). -/
def immIFits (imm : Word) : Bool := (imm.extractLsb' 0 12).signExtend 32 == imm

/-- `imm` is a U-type immediate: its low 12 bits are zero (R65). -/
def immUFits (imm : Word) : Bool := imm.extractLsb' 0 12 == 0#12

/-- The instruction has an encoding (R81: "whose `imm` is representable"). -/
def Instr.wf (i : Instr) : Bool :=
  (i.immI?.all immIFits) && (i.immU?.all immUFits)

end Sys2Proof
end

