-- ==== Sys2Proof/Decode.lean ====
section
/-! DEFINITION. The instruction decoder (spec/30_encoding.md): fields, immediates, the decode function of R80, the opcode
map of R68 to R74 as a table, and the encoder of R81. Every numeric opcode, funct3 and funct7 value is PRESUMED: the
spec supplies it from general knowledge (92_eei_decisions.md D1; notes/assumptions/2.md). -/

namespace Sys2Proof

/-! ### Fields (R62) and immediates (R64, R65, R66) -/

def opcodeOf (bits : Word) : BitVec 7 := bits.extractLsb' 0 7
def rdOf     (bits : Word) : RegIdx   := bits.extractLsb' 7 5
def funct3Of (bits : Word) : BitVec 3 := bits.extractLsb' 12 3
def rs1Of    (bits : Word) : RegIdx   := bits.extractLsb' 15 5
def rs2Of    (bits : Word) : RegIdx   := bits.extractLsb' 20 5
def funct7Of (bits : Word) : BitVec 7 := bits.extractLsb' 25 7

/-- The I-type immediate: "bits[31:20], sign-extended to 32 bits" (R64). -/
def immIOf (bits : Word) : Word := (bits.extractLsb' 20 12).signExtend 32

/-- The U-type immediate: "bits[31:12], placed as the upper 20 bits of a 32-bit value with the lower 12 bits zero"
(R65). -/
def immUOf (bits : Word) : Word := bits.extractLsb' 12 20 ++ 0#12

/-- The shift amount of an immediate shift: the rs2 field position, unsigned (R66). -/
def shamtOf (bits : Word) : Shamt := bits.extractLsb' 20 5

/-! ### The decoder (R67, R80) -/

/-- Why the decoder gives no instruction. -/
inductive DecodeError
  /-- The word matches no dispatch rule: the source's "UnsupportedInstruction(word)", the DecodeFault of R75 (C1). -/
  | unsupported (word : Word)
  /-- Fewer than the four bytes of an instruction were given (R60). No step raises it: a fetch gives a whole word. -/
  | truncated (bytes : Nat)
deriving DecidableEq, Repr

/-- The immediate arithmetic and shift instructions, opcode `0010011` (R70, R71). -/
def decodeOpImm (bits : Word) : Option Instr :=
  match funct3Of bits with
  | 0b000#3 => some (.addi (rdOf bits) (rs1Of bits) (immIOf bits))
  | 0b010#3 => some (.slti (rdOf bits) (rs1Of bits) (immIOf bits))
  | 0b011#3 => some (.sltiu (rdOf bits) (rs1Of bits) (immIOf bits))
  | 0b100#3 => some (.xori (rdOf bits) (rs1Of bits) (immIOf bits))
  | 0b110#3 => some (.ori (rdOf bits) (rs1Of bits) (immIOf bits))
  | 0b111#3 => some (.andi (rdOf bits) (rs1Of bits) (immIOf bits))
  | 0b001#3 =>
    match funct7Of bits with
    | 0b0000000#7 => some (.slli (rdOf bits) (rs1Of bits) (shamtOf bits))
    | _ => none
  | 0b101#3 =>
    match funct7Of bits with
    | 0b0000000#7 => some (.srli (rdOf bits) (rs1Of bits) (shamtOf bits))
    | 0b0100000#7 => some (.srai (rdOf bits) (rs1Of bits) (shamtOf bits))
    | _ => none
  | _ => none  -- no value of funct3 is left

/-- The register-register instructions, opcode `0110011` (R72): funct3 and all seven bits of funct7 are compared. -/
def decodeOp (bits : Word) : Option Instr :=
  match funct7Of bits, funct3Of bits with
  | 0b0000000#7, 0b000#3 => some (.add (rdOf bits) (rs1Of bits) (rs2Of bits))
  | 0b0100000#7, 0b000#3 => some (.sub (rdOf bits) (rs1Of bits) (rs2Of bits))
  | 0b0000000#7, 0b001#3 => some (.sll (rdOf bits) (rs1Of bits) (rs2Of bits))
  | 0b0000000#7, 0b010#3 => some (.slt (rdOf bits) (rs1Of bits) (rs2Of bits))
  | 0b0000000#7, 0b011#3 => some (.sltu (rdOf bits) (rs1Of bits) (rs2Of bits))
  | 0b0000000#7, 0b100#3 => some (.xor (rdOf bits) (rs1Of bits) (rs2Of bits))
  | 0b0000000#7, 0b101#3 => some (.srl (rdOf bits) (rs1Of bits) (rs2Of bits))
  | 0b0100000#7, 0b101#3 => some (.sra (rdOf bits) (rs1Of bits) (rs2Of bits))
  | 0b0000000#7, 0b110#3 => some (.or (rdOf bits) (rs1Of bits) (rs2Of bits))
  | 0b0000000#7, 0b111#3 => some (.and (rdOf bits) (rs1Of bits) (rs2Of bits))
  | _, _ => none

/-- JALR, opcode `1100111`: funct3 must be `000` (R73, D3). -/
def decodeJalr (bits : Word) : Option Instr :=
  match funct3Of bits with
  | 0b000#3 => some (.jalr (rdOf bits) (rs1Of bits) (immIOf bits))
  | _ => none

/-- FENCE, opcode `0001111`: funct3 must be `000`, every other bit is ignored (R74, D4). -/
def decodeFence (bits : Word) : Option Instr :=
  match funct3Of bits with
  | 0b000#3 => some .fence
  | _ => none

/-- The dispatch on the major opcode (R68, R69, R80); `none` where "no dispatch rule matches". -/
def decode? (bits : Word) : Option Instr :=
  match opcodeOf bits with
  | 0b0110111#7 => some (.lui (rdOf bits) (immUOf bits))
  | 0b0010111#7 => some (.auipc (rdOf bits) (immUOf bits))
  | 0b0010011#7 => decodeOpImm bits
  | 0b0110011#7 => decodeOp bits
  | 0b1100111#7 => decodeJalr bits
  | 0b0001111#7 => decodeFence bits
  | _ => none

/-- The decoder: a pure, total function of the 32-bit word (R67). Every word no rule matches is rejected, carrying
the word (R75). -/
def decode (bits : Word) : Except DecodeError Instr :=
  match decode? bits with
  | some i => .ok i
  | none => .error (.unsupported bits)

/-- The word whose bytes, from the lowest address on, are `b0 b1 b2 b3` (R61). -/
def wordOfBytes (b0 b1 b2 b3 : Byte) : Word := b3 ++ b2 ++ b1 ++ b0

/-- The four bytes of a word in the order of their addresses (R61). -/
def bytesOfWord (w : Word) : List Byte :=
  [w.extractLsb' 0 8, w.extractLsb' 8 8, w.extractLsb' 16 8, w.extractLsb' 24 8]

/-- Decoding the first instruction of a list of bytes: it takes exactly four (R60) and gives back the rest. -/
def decodeBytes : List Byte → Except DecodeError (Instr × List Byte)
  | b0 :: b1 :: b2 :: b3 :: rest => (decode (wordOfBytes b0 b1 b2 b3)).map (fun i => (i, rest))
  | short => .error (.truncated short.length)

/-- The instruction the decoder reads from the table word `w` of `nbits` bits: the word is laid out as the hardware
stores it (four bytes, least significant first, the bits above `nbits` zero) and decoded from those bytes. -/
def decodeTableWord (nbits w : Nat) : Option Instr :=
  match decodeBytes (bytesOfWord (BitVec.ofNat 32 (w % 2 ^ nbits))) with
  | .ok (i, _) => some i
  | .error _ => none

/-! ### The opcode map as a table (R69 to R74, spec/opcode_table.json) -/

/-- A row of the opcode map: a word belongs to it when `word & mask = value`. -/
structure Row where
  mnemonic : String
  mask     : Word
  value    : Word
deriving DecidableEq, Repr

def Row.covers (r : Row) (bits : Word) : Bool := bits &&& r.mask == r.value

/-- Rows of R69, R73 and R74. -/
def opcodeRowsOther : List Row :=
  [ ⟨"LUI",   0x0000007F#32, 0x00000037#32⟩,
    ⟨"AUIPC", 0x0000007F#32, 0x00000017#32⟩,
    ⟨"JALR",  0x0000707F#32, 0x00000067#32⟩,
    ⟨"FENCE", 0x0000707F#32, 0x0000000F#32⟩ ]

/-- Rows of R70 and R71. -/
def opcodeRowsImm : List Row :=
  [ ⟨"ADDI",  0x0000707F#32, 0x00000013#32⟩,
    ⟨"SLTI",  0x0000707F#32, 0x00002013#32⟩,
    ⟨"SLTIU", 0x0000707F#32, 0x00003013#32⟩,
    ⟨"XORI",  0x0000707F#32, 0x00004013#32⟩,
    ⟨"ORI",   0x0000707F#32, 0x00006013#32⟩,
    ⟨"ANDI",  0x0000707F#32, 0x00007013#32⟩,
    ⟨"SLLI",  0xFE00707F#32, 0x00001013#32⟩,
    ⟨"SRLI",  0xFE00707F#32, 0x00005013#32⟩,
    ⟨"SRAI",  0xFE00707F#32, 0x40005013#32⟩ ]

/-- Rows of R72. -/
def opcodeRowsReg : List Row :=
  [ ⟨"ADD",  0xFE00707F#32, 0x00000033#32⟩,
    ⟨"SUB",  0xFE00707F#32, 0x40000033#32⟩,
    ⟨"SLL",  0xFE00707F#32, 0x00001033#32⟩,
    ⟨"SLT",  0xFE00707F#32, 0x00002033#32⟩,
    ⟨"SLTU", 0xFE00707F#32, 0x00003033#32⟩,
    ⟨"XOR",  0xFE00707F#32, 0x00004033#32⟩,
    ⟨"SRL",  0xFE00707F#32, 0x00005033#32⟩,
    ⟨"SRA",  0xFE00707F#32, 0x40005033#32⟩,
    ⟨"OR",   0xFE00707F#32, 0x00006033#32⟩,
    ⟨"AND",  0xFE00707F#32, 0x00007033#32⟩ ]

/-- The whole opcode map: 23 rows. The decoder does not read it; it is the second, declarative form of the same map,
which the decoder is held to. -/
def opcodeTable : List Row := opcodeRowsOther ++ opcodeRowsImm ++ opcodeRowsReg

/-! ### The encoder (R81): each carried field at its position of R62, the key bits of R69 to R74, zeros in FENCE's
ignored bits -/

/-- Format R, and format I-shift with the amount in the place of rs2 (R63). -/
def encodeR (funct7 : BitVec 7) (rs2 rs1 : RegIdx) (funct3 : BitVec 3) (rd : RegIdx) (opcode : BitVec 7) : Word :=
  funct7 ++ rs2 ++ rs1 ++ funct3 ++ rd ++ opcode

/-- Format I (R63): the low 12 bits of the immediate. -/
def encodeI (imm : Word) (rs1 : RegIdx) (funct3 : BitVec 3) (rd : RegIdx) (opcode : BitVec 7) : Word :=
  imm.extractLsb' 0 12 ++ rs1 ++ funct3 ++ rd ++ opcode

/-- Format U (R63): the high 20 bits of the immediate. -/
def encodeU (imm : Word) (rd : RegIdx) (opcode : BitVec 7) : Word :=
  imm.extractLsb' 12 20 ++ rd ++ opcode

/-- The word of a well-formed instruction (R81). -/
def encode : Instr → Word
  | .lui rd imm => encodeU imm rd 0b0110111#7
  | .auipc rd imm => encodeU imm rd 0b0010111#7
  | .addi rd rs1 imm => encodeI imm rs1 0b000#3 rd 0b0010011#7
  | .slti rd rs1 imm => encodeI imm rs1 0b010#3 rd 0b0010011#7
  | .sltiu rd rs1 imm => encodeI imm rs1 0b011#3 rd 0b0010011#7
  | .xori rd rs1 imm => encodeI imm rs1 0b100#3 rd 0b0010011#7
  | .ori rd rs1 imm => encodeI imm rs1 0b110#3 rd 0b0010011#7
  | .andi rd rs1 imm => encodeI imm rs1 0b111#3 rd 0b0010011#7
  | .slli rd rs1 shamt => encodeR 0b0000000#7 shamt rs1 0b001#3 rd 0b0010011#7
  | .srli rd rs1 shamt => encodeR 0b0000000#7 shamt rs1 0b101#3 rd 0b0010011#7
  | .srai rd rs1 shamt => encodeR 0b0100000#7 shamt rs1 0b101#3 rd 0b0010011#7
  | .add rd rs1 rs2 => encodeR 0b0000000#7 rs2 rs1 0b000#3 rd 0b0110011#7
  | .sub rd rs1 rs2 => encodeR 0b0100000#7 rs2 rs1 0b000#3 rd 0b0110011#7
  | .sll rd rs1 rs2 => encodeR 0b0000000#7 rs2 rs1 0b001#3 rd 0b0110011#7
  | .slt rd rs1 rs2 => encodeR 0b0000000#7 rs2 rs1 0b010#3 rd 0b0110011#7
  | .sltu rd rs1 rs2 => encodeR 0b0000000#7 rs2 rs1 0b011#3 rd 0b0110011#7
  | .xor rd rs1 rs2 => encodeR 0b0000000#7 rs2 rs1 0b100#3 rd 0b0110011#7
  | .srl rd rs1 rs2 => encodeR 0b0000000#7 rs2 rs1 0b101#3 rd 0b0110011#7
  | .sra rd rs1 rs2 => encodeR 0b0100000#7 rs2 rs1 0b101#3 rd 0b0110011#7
  | .or rd rs1 rs2 => encodeR 0b0000000#7 rs2 rs1 0b110#3 rd 0b0110011#7
  | .and rd rs1 rs2 => encodeR 0b0000000#7 rs2 rs1 0b111#3 rd 0b0110011#7
  | .jalr rd rs1 imm => encodeI imm rs1 0b000#3 rd 0b1100111#7
  | .fence => 0x0000000F#32

/-- The bytes of a well-formed instruction in the order of their addresses (R61). -/
def encodeBytes (i : Instr) : List Byte := bytesOfWord (encode i)

end Sys2Proof
end

