-- ==== Sys2Proof/Machine/Flags.lean ====
section
/-! DEFINITION. Flags: the hardware has none (spec/10_state.md R18: "No status flag, carry, overflow or condition code
exists"). What other machines put in flags, the comparisons, goes to a general register as 0 or 1: those two
comparisons are here (spec/40_step_and_blocks.md R101). -/

namespace Sys2Proof.Machine

/-- A comparison's result as a register value: `0x0000_0000` or `0x0000_0001` (R101). -/
def truth (b : Bool) : Word := if b then 1#32 else 0#32

/-- `s(a) < s(b)` (R101): the two's-complement readings are compared. -/
def lessSigned (a b : Word) : Bool := a.toInt < b.toInt

/-- `u(a) < u(b)` (R101): the unsigned readings are compared. -/
def lessUnsigned (a b : Word) : Bool := a.toNat < b.toNat

end Sys2Proof.Machine
end

