-- ==== Sys2Proof/Machine/Alu.lean ====
section
/-! DEFINITION. The single_cycle_alu (spec/40_step_and_blocks.md R97 to R102): a pure function with ten operations, no
flag and no fault. -/

namespace Sys2Proof.Machine

/-- The ten operations (R97, R94). -/
inductive AluOp
  | add
  | sub
  | sll
  | slt
  | sltu
  | xor
  | srl
  | sra
  | or
  | and
deriving DecidableEq, Repr

/-- The shift amount: `b[4:0]`, "amount masked to 5 bits" (R100). -/
def shiftAmount (b : Word) : Nat := (b.extractLsb' 0 5).toNat

/-- `alu(alu_op, a, b)` (R97): every result is 32 bits, nothing traps (R98). -/
def alu (op : AluOp) (a b : Word) : Word :=
  match op with
  | .add => a + b
  | .sub => a - b
  | .sll => a <<< shiftAmount b
  | .slt => truth (lessSigned a b)
  | .sltu => truth (lessUnsigned a b)
  | .xor => a ^^^ b
  | .srl => a >>> shiftAmount b
  | .sra => a.sshiftRight (shiftAmount b)
  | .or => a ||| b
  | .and => a &&& b

end Sys2Proof.Machine
end

