-- ==== Sys2Proof/Config.lean ====
section
/-! DEFINITION. The configuration of one machine: the four parameters of spec/00_scope.md R6, the source's example
configuration (spec/20_memory.md R44), and the one free value (what a port shows of a fault record that has not been
written). -/

namespace Sys2Proof

/-- A region's access policy: "read-only or read-write" (R21, R50: there is no third). -/
inductive Policy
  | ro
  | rw
deriving DecidableEq, Repr

/-- One region of the address space (R31): it covers the addresses `base` to `base + size - 1`.
`image` is its ROM_IMAGE (R6, R224): the initial bytes, byte `k` at address `base + k`; `none` when absent. -/
structure Region where
  base   : Word
  size   : Nat
  policy : Policy
  image  : Option (List Byte)
deriving DecidableEq, Repr

/-- The parameters a model takes (R6). They are fixed for a run: the layout "is fixed at construction and never
changes" (R21). `xregInit` holds XREG_INIT, the values of x1 to x31 after reset, in that order. -/
structure Config where
  regions   : List Region
  execIndex : Nat
  xregInit  : Vector Word 31
deriving DecidableEq, Repr

/-- The fixed-width rendering of the fault latch on ports (R196, R197): `kind` is the numeric code, 0 to 4. -/
structure FaultPort where
  halted : Bool
  kind   : Nat
  pc     : Word
  addr   : Word
  word   : Word
deriving DecidableEq, Repr, Inhabited

namespace Config

/-- The source's example configuration (R6, R44): ROM at 0x0000_1000, RAM at 0x8000_0000, the ROM executable, no
image. DESIGN CHOICE (notes/assumptions/1.md): XREG_INIT is zero here; the spec leaves it open. -/
def example1 : Config where
  regions :=
    [ { base := 0x00001000#32, size := 4096, policy := .ro, image := none },
      { base := 0x80000000#32, size := 1048576, policy := .rw, image := none } ]
  execIndex := 0
  xregInit := Vector.replicate 31 0#32

/-- FREE VALUE (notes/assumptions/8.md): what the port shows of `fault_rec` while `halted = 0`, which R226 leaves
"unspecified until `halted = 1`". It has no body: nothing can be proved of it. -/
opaque idleFaultPort : FaultPort

end Config

end Sys2Proof
end

