-- ==== Sys2Proof/Machine/State.lean ====
section
/-! DEFINITION. The architectural state (spec/10_state.md R10): registers, program counter, byte storage, fault latch,
and the configuration they are read with (spec/00_scope.md R6); the state after reset (spec/70_reset_and_hazards.md
R226). -/

namespace Sys2Proof.Machine

/-- A fault of the hardware (R190: "The complete set of faults"). Inside a step a fault is TAKEN: the step answers a next
state whose latch holds it (R195), so no step answers `.fault`; the router's write port does (`memWrite`). -/
inductive Fault
  /-- The decoder, in a step: the word matches no row of the opcode map (R191). Taken as a next state. Safe. -/
  | decodeFault (word : Word)
  /-- The bus, for a fetch or at the data port: the access starts at `addr` in no region, or crosses its region's
  end (R192). Taken as a next state by a step, answered by `memRead` and `memWrite` at the port. Safe. -/
  | addressFault (addr : Word)
  /-- The bus, at the write port only: `addr` is in a read-only region (R193). No step raises it. Safe. -/
  | writeProtectFault (addr : Word)
  /-- The register file's defensive fault (R194): never raised, an index is 5 bits. It stands here because the source's
  taxonomy lists it (D20). Safe. -/
  | registerIndexFault
deriving DecidableEq, Repr

/-- Why the model gives no answer. -/
inductive Refusal
  /-- Raised by an arm of `exec` for an instruction without a meaning; no arm does so now. Safe. -/
  | notModelled (mnemonic : String)
  /-- Raised by `powerUp` and `assertReset`: the configuration breaks a constraint of R6 or R31, and the spec makes no
  claim about such a machine (U2, U4). Safe. -/
  | illFormedConfiguration
deriving DecidableEq, Repr

/-- The `kind` field of the fault record: the names of R190. -/
inductive FaultKind
  | decodeFault
  | addressFault
  | writeProtectFault
  | registerIndexFault
deriving DecidableEq, Repr

/-- `fault_rec` (R196): a field the fault has no value for is absent (C6). -/
structure FaultRec where
  kind : FaultKind
  pc   : Word
  addr : Option Word
  word : Option Word
deriving DecidableEq, Repr

/-- Byte storage: the cells of all regions, by absolute address, strictly rising, without the bytes that equal
`Memory.unlisted`. -/
abbrev Memory := List Host.Cell

/-- What a byte that no cell lists holds: zero, as the spec gives it for a read-write region (R223) and for a read-only
region without an image (R224). -/
abbrev Memory.unlisted : Byte := 0#8

/-- The machine's state. `regs` holds x1 to x31, in that order; x0 has no storage (R10). `latch` is the fault latch
(R20): `none` is `halted = 0`; `some rec` is `halted = 1` with `fault_rec = rec`. `cfg` never changes. -/
structure State where
  cfg   : Config
  regs  : Vector Word 31
  pc    : Word
  mem   : Memory
  latch : Option FaultRec
deriving DecidableEq, Repr

/-- The bit `halted` (R20). -/
def State.halted (s : State) : Bool := s.latch.isSome

/-- The machine right after reset in the source's example configuration, with no ROM image (R226): the pc at the base of
the executable region, every byte zero, not halted. The registers hold that configuration's XREG_INIT, which is zero by
DESIGN CHOICE (notes/assumptions/1.md). -/
def State.reset : State where
  cfg   := Config.example1
  regs  := Config.example1.xregInit
  pc    := 0x00001000#32
  mem   := []
  latch := none

end Sys2Proof.Machine
end

