-- ==== Sys2Proof/Machine/Ops.lean ====
section
/-! DEFINITION. The named operations over the state: the register file, byte storage, the address_space_router, the
program_counter_increment and the fault latch (spec/10_state.md, 20_memory.md, 40_step_and_blocks.md,
60_exceptions.md). -/

namespace Sys2Proof.Machine

/-! ### The register file (R11, R12) -/

/-- `x[i]` (R11): index 0 reads 0 whatever has been written. -/
def State.readReg (s : State) (i : RegIdx) : Word :=
  if h : i = 0#5 then 0#32
  else s.regs[i.toNat - 1]'(by have := i.isLt; have : i.toNat ≠ 0 := fun e => h (BitVec.eq_of_toNat_eq e); omega)

/-- `x[i] <- v` (R12): a write to index 0 is discarded. -/
def State.writeReg (s : State) (i : RegIdx) (v : Word) : State :=
  if h : i = 0#5 then s
  else
    { s with
      regs := s.regs.set (i.toNat - 1) v
        (by have := i.isLt; have : i.toNat ≠ 0 := fun e => h (BitVec.eq_of_toNat_eq e); omega) }

/-! ### The program_counter_increment (R95) -/

/-- `pc_plus4`: modulo 2^32 (R16, D5); the default next-pc and the link of JALR. -/
def pcPlus4 (pc : Word) : Word := pc + 4#32

/-- `next_pc`: the target of a jump, else `pc_plus4`. -/
def nextPc (pc : Word) (target : Option Word) : Word :=
  match target with
  | some t => t
  | none => pcPlus4 pc

/-- The commit of a step: the pc register takes `next_pc` (R14, R95). -/
def State.commit (s : State) (target : Option Word) : State := { s with pc := nextPc s.pc target }

/-! ### Byte storage -/

/-- The canonical form of byte storage: addresses strictly rising, no cell equal to what an unlisted address reads as. -/
abbrev Memory.wf (m : Memory) : Prop :=
  m.Pairwise (fun c d => c.1 < d.1) ∧ ∀ c ∈ m, c.2 ≠ Memory.unlisted

/-- The byte at an address. -/
def Memory.read : Memory → Nat → Byte
  | [], _ => Memory.unlisted
  | (k, b) :: m, a => if k = a then b else Memory.read m a

/-- Storing one byte, keeping the canonical form. -/
def Memory.write : Memory → Nat → Byte → Memory
  | [], a, v => if v = Memory.unlisted then [] else [(a, v)]
  | (k, b) :: m, a, v =>
    if a < k then (if v = Memory.unlisted then (k, b) :: m else (a, v) :: (k, b) :: m)
    else if a = k then (if v = Memory.unlisted then m else (a, v) :: m)
    else (k, b) :: Memory.write m a v

/-- The `n` bytes from `a` on as one number, the lowest address least significant (R36, R38). -/
def Memory.loadNat (m : Memory) (a : Nat) : Nat → Nat
  | 0 => 0
  | n + 1 => (Memory.read m a).toNat + 256 * Memory.loadNat m (a + 1) n

/-- Storing the low `n` bytes of `v` from `a` on, the least significant at the lowest address (R37, R38). -/
def Memory.store (m : Memory) (a : Nat) (v : Word) : Nat → Memory
  | 0 => m
  | n + 1 => Memory.store (Memory.write m a (v.extractLsb' 0 8)) (a + 1) (v >>> 8) n

/-! ### The address_space_router (R30 to R40) -/

/-- The width of an access: 1, 2 or 4 bytes (R41). -/
inductive Width
  | byte
  | half
  | word
deriving DecidableEq, Repr

def Width.bytes : Width → Nat
  | .byte => 1
  | .half => 2
  | .word => 4

end Sys2Proof.Machine

namespace Sys2Proof

/-- `base <= address <= end` with `end = base + size - 1` (R31, R32), on unbounded integers (D13). -/
def Region.contains (r : Region) (a : Word) : Bool := r.base.toNat ≤ a.toNat && a.toNat < r.base.toNat + r.size

/-- All bytes of the access lie in the region: `off + width <= size` (R34), on unbounded integers (D13). -/
def Region.holds (r : Region) (a : Word) (width : Nat) : Bool :=
  r.base.toNat ≤ a.toNat && a.toNat - r.base.toNat + width ≤ r.size

end Sys2Proof

namespace Sys2Proof.Machine

/-- The region an access resolves to (R32). Where regions do not overlap it is the only one that contains the address. -/
def regionAt (regions : List Region) (a : Word) : Option Region := regions.find? (fun r => r.contains a)

/-- `MemRead(address, width)` (R36): unmapped, then crossing (R40); the value is zero-extended (D11). It changes no
state. -/
def memRead (s : State) (a : Word) (w : Width) : Except Fault Word :=
  match regionAt s.cfg.regions a with
  | none => .error (.addressFault a)
  | some r =>
    if r.holds a w.bytes then .ok (BitVec.ofNat 32 (Memory.loadNat s.mem a.toNat w.bytes))
    else .error (.addressFault a)

/-- `MemWrite(address, width, value)` (R37): unmapped, then read-only, then crossing (R40, D9); the bits of `value` above
the width are ignored (D11). No instruction performs it: it is the router's data port (R41). A fault of the port
transfers nothing and does not touch the fault latch (DEDUCED, notes/assumptions/16.md). -/
def memWrite (s : State) (a : Word) (w : Width) (v : Word) : Host.Outcome State Fault Refusal :=
  match regionAt s.cfg.regions a with
  | none => .fault (.addressFault a)
  | some r =>
    if r.policy = .ro then .fault (.writeProtectFault a)
    else if r.holds a w.bytes then .next { s with mem := Memory.store s.mem a.toNat v w.bytes }
    else .fault (.addressFault a)

/-- The fetch of a step: `MemRead(pc, 4)` (R60, R90). -/
def fetch (s : State) : Except Fault Word := memRead s s.pc .word

/-- The load of one instruction word at the pc, where `fetch` will read it: the loader's act, which no policy stops (R224,
notes/assumptions/10.md). Where no fetch at the pc can succeed, nothing is stored. -/
def placeAtPc (s : State) (w : Word) : Memory :=
  match fetch s with
  | .ok _ => Memory.store s.mem s.pc.toNat w 4
  | .error _ => s.mem

/-! ### The fault latch (R20, R195, R196) -/

def Fault.kind : Fault → FaultKind
  | .decodeFault _ => .decodeFault
  | .addressFault _ => .addressFault
  | .writeProtectFault _ => .writeProtectFault
  | .registerIndexFault => .registerIndexFault

/-- The start address of the failed access: AddressFault and WriteProtectFault have one (R196, D22). -/
def Fault.addr? : Fault → Option Word
  | .decodeFault _ => none
  | .addressFault a => some a
  | .writeProtectFault a => some a
  | .registerIndexFault => none

/-- The fetched word: DecodeFault has one (R196, D22). -/
def Fault.word? : Fault → Option Word
  | .decodeFault w => some w
  | .addressFault _ => none
  | .writeProtectFault _ => none
  | .registerIndexFault => none

/-- What a fault records (R190, R196): `pc` is the pc at the start of the faulting step. -/
def Fault.record (f : Fault) (pc : Word) : FaultRec :=
  { kind := f.kind, pc := pc, addr := f.addr?, word := f.word? }

/-- TAKING A FAULT (R195): `halted <- 1` and `fault_rec` written; nothing else changes, and a record once written stays.
There is no trap entry (R200) and no return (R201): only reset clears the latch. -/
def State.takeFault (s : State) (f : Fault) : State :=
  match s.latch with
  | some _ => s
  | none => { s with latch := some (f.record s.pc) }

/-- The numeric code of a fault (R190, R197, D10); 0 means no fault. -/
def FaultKind.code : FaultKind → Nat
  | .decodeFault => 1
  | .addressFault => 2
  | .writeProtectFault => 3
  | .registerIndexFault => 4

/-- The fault record as the outside sees it on fixed-width ports (R196): an absent field reads 0. While the machine runs
the record is unspecified (R226): a free value. -/
def State.faultPort (s : State) : FaultPort :=
  match s.latch with
  | none => { Config.idleFaultPort with halted := false }
  | some r =>
    { halted := true, kind := r.kind.code, pc := r.pc, addr := r.addr.getD 0#32, word := r.word.getD 0#32 }

end Sys2Proof.Machine
end

