-- ==== Sys2Proof/Machine/Operands.lean ====
section
/-! DEFINITION. Operand forms and the two ways an instruction ends (spec/40_step_and_blocks.md R90, R92, R96). -/

namespace Sys2Proof.Machine

/-- What an instruction feeds to the ALU (R96). -/
inductive Operand
  /-- The constant 0 (LUI). -/
  | zero
  /-- The fetch address `A` (AUIPC). -/
  | pc
  /-- A source register (R11). -/
  | reg (i : RegIdx)
  /-- An immediate, as the decoder delivers it (R64, R65). -/
  | imm (v : Word)
  /-- A shift amount, zero-extended (R66). -/
  | shamt (n : Shamt)
deriving DecidableEq, Repr

/-- The value of an operand at the start of the instruction (R92). -/
def Operand.value (s : State) : Operand → Word
  | .zero => 0#32
  | .pc => s.pc
  | .reg i => s.readReg i
  | .imm v => v
  | .shamt n => n.zeroExtend 32

/-- `x[rd] <- v` and the commit of the step (R90, R95); `target` is `none` but for a jump. -/
def State.retire (s : State) (rd : RegIdx) (v : Word) (target : Option Word) : State :=
  (s.writeReg rd v).commit target

/-- An instruction whose result is one application of the ALU (R96, R97): both operands are read, then `rd` is written, and
the pc advances by 4. -/
def aluInstr (op : AluOp) (a b : Operand) (rd : RegIdx) (s : State) : Host.Outcome State Fault Refusal :=
  .next (s.retire rd (alu op (a.value s) (b.value s)) none)

/-- A sum with bit 0 cleared: JALR's target (R170). -/
def jumpTarget (base imm : Word) : Word := alu .add base imm &&& 0xFFFFFFFE#32

end Sys2Proof.Machine
end

