-- ==== Sys2Proof/Machine/Fence.lean ====
section
/-! DEFINITION. FENCE (spec/46_fence.md R180, R181). -/

namespace Sys2Proof.Machine

/-- FENCE (R180): no register is read or written, no memory is accessed; the pc advances by 4. There is nothing to order
(R181). -/
def execFence (s : State) : Host.Outcome State Fault Refusal :=
  .next (s.commit none)

end Sys2Proof.Machine
end

