-- ==== Sys2Proof/Machine/ImmediateArithmetic.lean ====
section
/-! DEFINITION. ADDI, SLTI, SLTIU, XORI, ORI, ANDI (spec/42_immediate_arithmetic.md R130 to R135). `imm` is the
sign-extended immediate (R64), SLTIU's too (C5). -/

namespace Sys2Proof.Machine

/-- ADDI (R130): `x[rd] <- (x[rs1] + immI) mod 2^32`. -/
def execAddi (rd rs1 : RegIdx) (imm : Word) (s : State) : Host.Outcome State Fault Refusal :=
  aluInstr .add (.reg rs1) (.imm imm) rd s

/-- SLTI (R131): `x[rd] <- 1 if s(x[rs1]) < s(immI) else 0`. -/
def execSlti (rd rs1 : RegIdx) (imm : Word) (s : State) : Host.Outcome State Fault Refusal :=
  aluInstr .slt (.reg rs1) (.imm imm) rd s

/-- SLTIU (R132): `x[rd] <- 1 if u(x[rs1]) < u(immI) else 0`. -/
def execSltiu (rd rs1 : RegIdx) (imm : Word) (s : State) : Host.Outcome State Fault Refusal :=
  aluInstr .sltu (.reg rs1) (.imm imm) rd s

/-- XORI (R133): `x[rd] <- x[rs1] ^ immI`. -/
def execXori (rd rs1 : RegIdx) (imm : Word) (s : State) : Host.Outcome State Fault Refusal :=
  aluInstr .xor (.reg rs1) (.imm imm) rd s

/-- ORI (R134): `x[rd] <- x[rs1] | immI`. -/
def execOri (rd rs1 : RegIdx) (imm : Word) (s : State) : Host.Outcome State Fault Refusal :=
  aluInstr .or (.reg rs1) (.imm imm) rd s

/-- ANDI (R135): `x[rd] <- x[rs1] & immI`. -/
def execAndi (rd rs1 : RegIdx) (imm : Word) (s : State) : Host.Outcome State Fault Refusal :=
  aluInstr .and (.reg rs1) (.imm imm) rd s

end Sys2Proof.Machine
end

