-- ==== Sys2Proof/Machine/ImmediateShift.lean ====
section
/-! DEFINITION. SLLI, SRLI, SRAI (spec/43_immediate_shift.md R140 to R142). -/

namespace Sys2Proof.Machine

/-- SLLI (R140): `x[rd] <- (x[rs1] << shamt) mod 2^32`. -/
def execSlli (rd rs1 : RegIdx) (shamt : Shamt) (s : State) : Host.Outcome State Fault Refusal :=
  aluInstr .sll (.reg rs1) (.shamt shamt) rd s

/-- SRLI (R141): `x[rd] <- x[rs1] >>u shamt`. -/
def execSrli (rd rs1 : RegIdx) (shamt : Shamt) (s : State) : Host.Outcome State Fault Refusal :=
  aluInstr .srl (.reg rs1) (.shamt shamt) rd s

/-- SRAI (R142): `x[rd] <- x[rs1] >>s shamt`. -/
def execSrai (rd rs1 : RegIdx) (shamt : Shamt) (s : State) : Host.Outcome State Fault Refusal :=
  aluInstr .sra (.reg rs1) (.shamt shamt) rd s

end Sys2Proof.Machine
end

