-- ==== Sys2Proof/Machine/IndirectJump.lean ====
section
/-! DEFINITION. JALR (spec/45_indirect_jump.md R170 to R173). -/

namespace Sys2Proof.Machine

/-- JALR (R170): the target is `(x[rs1] + immI) mod 2^32` with bit 0 cleared, the link is the fetch address plus 4, and the
next pc is exactly the target (R173). The base is read before the link is written (R92). No alignment or mapping
check is made here. -/
def execJalr (rd rs1 : RegIdx) (imm : Word) (s : State) : Host.Outcome State Fault Refusal :=
  .next (s.retire rd (pcPlus4 s.pc) (some (jumpTarget (s.readReg rs1) imm)))

end Sys2Proof.Machine
end

