-- ==== Sys2Proof/Machine/RegisterRegister.lean ====
section
/-! DEFINITION. ADD, SUB, SLL, SLT, SLTU, XOR, SRL, SRA, OR, AND (spec/44_register_register.md R150 to R159). -/

namespace Sys2Proof.Machine

/-- ADD (R150): `x[rd] <- (x[rs1] + x[rs2]) mod 2^32`. -/
def execAdd (rd rs1 rs2 : RegIdx) (s : State) : Host.Outcome State Fault Refusal :=
  aluInstr .add (.reg rs1) (.reg rs2) rd s

/-- SUB (R151): `x[rd] <- (x[rs1] - x[rs2]) mod 2^32`. -/
def execSub (rd rs1 rs2 : RegIdx) (s : State) : Host.Outcome State Fault Refusal :=
  aluInstr .sub (.reg rs1) (.reg rs2) rd s

/-- SLL (R152): `x[rd] <- (x[rs1] << x[rs2][4:0]) mod 2^32`. -/
def execSll (rd rs1 rs2 : RegIdx) (s : State) : Host.Outcome State Fault Refusal :=
  aluInstr .sll (.reg rs1) (.reg rs2) rd s

/-- SLT (R153): `x[rd] <- 1 if s(x[rs1]) < s(x[rs2]) else 0`. -/
def execSlt (rd rs1 rs2 : RegIdx) (s : State) : Host.Outcome State Fault Refusal :=
  aluInstr .slt (.reg rs1) (.reg rs2) rd s

/-- SLTU (R154): `x[rd] <- 1 if u(x[rs1]) < u(x[rs2]) else 0`. -/
def execSltu (rd rs1 rs2 : RegIdx) (s : State) : Host.Outcome State Fault Refusal :=
  aluInstr .sltu (.reg rs1) (.reg rs2) rd s

/-- XOR (R155): `x[rd] <- x[rs1] ^ x[rs2]`. -/
def execXor (rd rs1 rs2 : RegIdx) (s : State) : Host.Outcome State Fault Refusal :=
  aluInstr .xor (.reg rs1) (.reg rs2) rd s

/-- SRL (R156): `x[rd] <- x[rs1] >>u x[rs2][4:0]`. -/
def execSrl (rd rs1 rs2 : RegIdx) (s : State) : Host.Outcome State Fault Refusal :=
  aluInstr .srl (.reg rs1) (.reg rs2) rd s

/-- SRA (R157): `x[rd] <- x[rs1] >>s x[rs2][4:0]`. -/
def execSra (rd rs1 rs2 : RegIdx) (s : State) : Host.Outcome State Fault Refusal :=
  aluInstr .sra (.reg rs1) (.reg rs2) rd s

/-- OR (R158): `x[rd] <- x[rs1] | x[rs2]`. -/
def execOr (rd rs1 rs2 : RegIdx) (s : State) : Host.Outcome State Fault Refusal :=
  aluInstr .or (.reg rs1) (.reg rs2) rd s

/-- AND (R159): `x[rd] <- x[rs1] & x[rs2]`. -/
def execAnd (rd rs1 rs2 : RegIdx) (s : State) : Host.Outcome State Fault Refusal :=
  aluInstr .and (.reg rs1) (.reg rs2) rd s

end Sys2Proof.Machine
end

