-- ==== Sys2Proof/Machine/UpperImmediate.lean ====
section
/-! DEFINITION. LUI and AUIPC (spec/41_upper_immediate.md R120, R121). -/

namespace Sys2Proof.Machine

/-- LUI (R120): `x[rd] <- immU`. -/
def execLui (rd : RegIdx) (imm : Word) (s : State) : Host.Outcome State Fault Refusal :=
  aluInstr .add .zero (.imm imm) rd s

/-- AUIPC (R121): `x[rd] <- (pc + immU) mod 2^32`, the pc being the address this AUIPC was fetched from. -/
def execAuipc (rd : RegIdx) (imm : Word) (s : State) : Host.Outcome State Fault Refusal :=
  aluInstr .add .pc (.imm imm) rd s

end Sys2Proof.Machine
end

