-- ==== Sys2Proof/Machine/Step.lean ====
section
/-! DEFINITION. One step (spec/40_step_and_blocks.md R90), and the load of an instruction word where the next step fetches
it. -/

namespace Sys2Proof.Machine

/-- `step()` (R90): a halted machine does nothing (R195); an AddressFault of the fetch and a DecodeFault of the decoder are
taken (R191, R192), in this order (R198); a decoded instruction is executed. -/
def step (s : State) : Host.Outcome State Fault Refusal :=
  if s.halted then .next s
  else
    match fetch s with
    | .error f => .next (s.takeFault f)
    | .ok bits =>
      match decode bits with
      | .error _ => .next (s.takeFault (.decodeFault bits))
      | .ok i => exec i s

/-- `s` with the table word `w` of `nbits` bits stored at the pc, and the fault latch clear, so that the next step fetches
and runs it. It stands for the loader's ROM_IMAGE (R227, notes/assumptions/10.md). -/
def State.withFetchWord (s : State) (nbits w : Nat) : State :=
  { s with mem := placeAtPc s (BitVec.ofNat 32 (w % 2 ^ nbits)), latch := none }

end Sys2Proof.Machine
end

