-- ==== Sys2Proof/Machine/Boot.lean ====
section
/-! DEFINITION. Construction of the machine and the reset input (spec/70_reset_and_hazards.md R220 to R227), with the
constraints a configuration must meet (spec/00_scope.md R6, spec/20_memory.md R31). -/

namespace Sys2Proof

/-- One region's own constraints: `size >= 1`, `base + size <= 2^32` (R31, D12); an image only in a read-only region and
then "exactly `size` bytes" (R6, R224, D15). -/
def Region.wf (r : Region) : Bool :=
  1 ≤ r.size && r.base.toNat + r.size ≤ 2 ^ 32 &&
    (match r.policy, r.image with
      | _, none => true
      | .ro, some bytes => bytes.length == r.size
      | .rw, some _ => false)

/-- No address lies in both regions. -/
def Region.disjoint (r q : Region) : Bool :=
  r.base.toNat + r.size ≤ q.base.toNat || q.base.toNat + q.size ≤ r.base.toNat

/-- The regions are pairwise non-overlapping (R31). -/
def disjointRegions : List Region → Bool
  | [] => true
  | r :: rs => rs.all (fun q => r.disjoint q) && disjointRegions rs

/-- The constraints of R6 and R31: every region sound, no two overlap, EXEC_REGION names one (so there is at least
one). -/
def Config.wf (c : Config) : Bool :=
  c.regions.all Region.wf && disjointRegions c.regions && c.execIndex < c.regions.length

/-- The reset pc: `REGIONS[EXEC_REGION].base` (R221). The value for an index that names no region is never used: `powerUp`
refuses such a configuration. -/
def Config.resetPc (c : Config) : Word :=
  match c.regions[c.execIndex]? with
  | some r => r.base
  | none => 0#32

end Sys2Proof

namespace Sys2Proof.Machine

/-- Storing consecutive bytes from `a` on. -/
def Memory.storeBytes (m : Memory) (a : Nat) : List Byte → Memory
  | [] => m
  | b :: bs => Memory.storeBytes (Memory.write m a b) (a + 1) bs

/-- Byte storage after reset: each read-only region's image (R224), zero everywhere else (R223). -/
def romStorage : List Region → Memory
  | [] => []
  | r :: rs =>
    match r.policy, r.image with
    | .ro, some bytes => Memory.storeBytes (romStorage rs) r.base.toNat bytes
    | _, _ => romStorage rs

/-- The state after reset in a configuration (R226). -/
def State.boot (c : Config) : State :=
  { cfg := c, regs := c.xregInit, pc := c.resetPc, mem := romStorage c.regions, latch := none }

/-- Power-up ("machine startup", R220): it refuses a configuration that breaks a constraint (R31: "a model may refuse a
table that breaks a constraint"; U2, U4). -/
def powerUp (c : Config) : Host.Outcome State Fault Refusal :=
  if c.wf then .next (State.boot c) else .refused .illFormedConfiguration

/-- The reset input (R220): "asserting it again later starts a new run from the same values", those of the machine's own
configuration. It is the only thing that clears the fault latch (R195). -/
def assertReset (s : State) : Host.Outcome State Fault Refusal := powerUp s.cfg

end Sys2Proof.Machine
end

