-- ==== Sys2Proof/Safety.lean ====
section
/-! DEFINITION. The vocabulary of the claims: what an instruction leaves unchanged, what it writes, what a safe run is, and
the invariant of the state. -/

namespace Sys2Proof.Machine

/-- Every byte of memory reads in `t` as in `s`, at every address, mapped or not. -/
def SameBytes (s t : State) : Prop := ∀ a : Word, memRead t a .byte = memRead s a .byte

/-- Every register but `rd` reads in `t` as in `s`. -/
def SameRegsBut (rd : RegIdx) (s t : State) : Prop := ∀ r : RegIdx, r ≠ rd → t.readReg r = s.readReg r

/-- All that is neither a register nor the pc: memory, the fault latch, the configuration. -/
def SameRest (s t : State) : Prop := SameBytes s t ∧ t.latch = s.latch ∧ t.cfg = s.cfg

/-- `x[rd]` holds `v` (0 when `rd` is x0, whose writes are discarded, R12), every other register and all the rest are
unchanged; the pc is left to be said. -/
def WritesOnly (rd : RegIdx) (v : Word) (s t : State) : Prop :=
  t.readReg rd = (if rd = 0#5 then 0#32 else v) ∧ SameRegsBut rd s t ∧ SameRest s t

/-- The pc of `t` is four beyond that of `s`, modulo 2^32 (R15, R16). -/
def Advances (s t : State) : Prop := t.pc.toNat = (s.pc.toNat + 4) % 2 ^ 32

/-- Every register reads in `t` as in `s`. -/
def SameRegs (s t : State) : Prop := ∀ r : RegIdx, t.readReg r = s.readReg r

/-- The next word to be executed is the instruction `i`: it is fetched at the pc and decodes to `i`. -/
def Fetches (s : State) (i : Instr) : Prop := ∃ bits, fetch s = .ok bits ∧ decode bits = .ok i

/-- What the fault of a step is, if the step faults (R198): the fetch comes first. -/
def stepFault? (s : State) : Option Fault :=
  match fetch s with
  | .error f => some f
  | .ok bits =>
    match decode bits with
    | .error _ => some (.decodeFault bits)
    | .ok _ => none

/-- `k` steps, one after the other (R93: "driver repeatedly invokes Core.step()"). -/
def run : Nat → State → Host.Outcome State Fault Refusal
  | 0, s => .next s
  | k + 1, s =>
    match step s with
    | .next t => run k t
    | .fault f => .fault f
    | .refused r => .refused r

/-- A run of `k` steps records no fault. -/
def SafeRun (k : Nat) (s : State) : Prop := ∃ t, run k s = .next t ∧ t.halted = false

/-- Every listed byte lies in a region. -/
def CellsMapped (s : State) : Prop :=
  ∀ c ∈ s.mem, ∃ r ∈ s.cfg.regions, r.base.toNat ≤ c.1 ∧ c.1 < r.base.toNat + r.size

/-- A recorded fault is the one the pc, the memory and the decoder still give: of the two kinds a step can raise, at the
pc the machine stopped at, with exactly the fields its kind has. -/
def LatchExplained (s : State) : Prop :=
  ∀ rec, s.latch = some rec → ∃ f, stepFault? s = some f ∧ rec = f.record s.pc

/-- The invariant: a sound configuration, canonical byte storage inside the regions, an explained latch. -/
def State.Inv (s : State) : Prop :=
  s.cfg.wf = true ∧ Memory.wf s.mem ∧ CellsMapped s ∧ LatchExplained s

/-- The bytes of every region are the reset ones: a read-only region its image or zero, a read-write region zero
(R223, R224). -/
def ResetBytes (s : State) : Prop :=
  ∀ r ∈ s.cfg.regions, ∀ k : Nat, k < r.size →
    memRead s (BitVec.ofNat 32 (r.base.toNat + k)) .byte =
      .ok (((r.image.getD []).getD k 0#8).zeroExtend 32)

/-- A list of register writes, one after the other. -/
def regWrites (s : State) (ws : List (RegIdx × Word)) : State := ws.foldl (fun u w => u.writeReg w.1 w.2) s

/-- The value most recently written to an index, if the list holds a write to it (R11). -/
def lastWritten? (ws : List (RegIdx × Word)) (i : RegIdx) : Option Word :=
  ws.foldl (fun acc w => if w.1 = i then some w.2 else acc) none

/-- The byte most recently written to an address, if a write of the list covers it (R42). -/
def lastByte? (ws : List (Word × Width × Word)) (b : Word) : Option Byte :=
  ws.foldl
    (fun (acc : Option Byte) (w : Word × Width × Word) =>
      if w.1.toNat ≤ b.toNat ∧ b.toNat < w.1.toNat + w.2.1.bytes then
        some ((w.2.2 >>> (8 * (b.toNat - w.1.toNat))).extractLsb' 0 8)
      else acc)
    none

/-- Storing a list of bus writes one after the other, stopping at the first fault. -/
def busWrites (s : State) : List (Word × Width × Word) → Host.Outcome State Fault Refusal
  | [] => .next s
  | (a, w, v) :: rest =>
    match memWrite s a w v with
    | .next t => busWrites t rest
    | .fault f => .fault f
    | .refused r => .refused r

end Sys2Proof.Machine
end

