-- ==== Sys2Proof/Certificates/Slice0/Obligations.lean ====
section
/-! DEFINITION. The statements for the provers. Word-for-word quotes and cited rules stand in OBLIGATIONS.json; a docstring
names the decision or the log entry a clause rests on. -/

open Sys2Proof Sys2Proof.Machine

/-! ### The register file -/

/-- R11. After any list of writes a register reads the value most recently written to it, or what it held before when none
was; x0 reads 0 whatever has been written; after power-up x(k+1) holds the k-th value of XREG_INIT, its reset value. -/
def Obligations.RegisterReadsItsLastWrite : Prop :=
  (∀ (s : State) (ws : List (RegIdx × Word)) (i : RegIdx),
    (regWrites s ws).readReg i = if i = 0#5 then 0#32 else (lastWritten? ws i).getD (s.readReg i)) ∧
  (∀ (c : Config) (t : State), powerUp c = .next t →
    ∀ k : Fin 31, t.readReg (BitVec.ofNat 5 (k.val + 1)) = c.xregInit[k])

/-- Of R12: a write to index 0 changes nothing, a write to another index stores the value and touches no other register; every
instruction's destination write goes through this contract: with destination x0 it has all its other effects (the same
next pc, for JALR the jump) and leaves every register as it was, and with another destination it differs by exactly
one register write. That this holds for JALR with rd = rs1 too, whose base is then read before the link is written, is the
spec's choice D6 (log entry 6). -/
def Obligations.EveryDestinationWriteGoesThroughTheRegisterFile : Prop :=
  (∀ (s : State) (v : Word), s.writeReg 0#5 v = s) ∧
  (∀ (s : State) (i j : RegIdx) (v : Word), i ≠ 0#5 →
    (s.writeReg i v).readReg j = if j = i then v else s.readReg j) ∧
  (∀ (i : Instr) (s : State), i.rd?.isSome = true →
    ∃ (t : State) (v : Word), exec (i.withRd 0#5) s = .next t ∧ SameRegs s t ∧ SameRest s t ∧
      ∀ rd : RegIdx, exec (i.withRd rd) s = .next (t.writeReg rd v))

/-! ### The program counter -/

/-- Of R15: every instruction but JALR advances the pc by 4; and none but AUIPC and JALR reads the pc as data: run at another
pc, each of the others leaves the same registers. That the pc wraps at 0xFFFF_FFFC is the spec's choice D5 (log entry
5). -/
def Obligations.OnlyJalrOverridesTheNextPc : Prop :=
  ∀ (i : Instr) (s : State), (∀ rd rs1 imm, i ≠ .jalr rd rs1 imm) →
    ∃ t, exec i s = .next t ∧ t.pc = s.pc + 4#32 ∧
      ((∀ rd imm, i ≠ .auipc rd imm) →
        ∀ p : Word, ∃ u, exec i { s with pc := p } = .next u ∧ u.pc = p + 4#32 ∧ SameRegs t u)

/-- What a step can do to the pc (R171 and the fault rules): four further on, or unchanged with a fault latched, or the
target of a JALR; the standard branch and JAL opcodes are decode faults. The two opcode values are the spec's choice
D1 (log entry 2), the wrap of the pc at 0xFFFF_FFFC is D5 (log entry 5), the old x[rs1] in the target of a JALR with
rd = rs1 is D6 (log entry 6), the halt is D8 (log entry 7). -/
def Obligations.OnlyJalrLeavesTheStraightLine : Prop :=
  (∀ s t : State, s.latch = none → step s = .next t →
    (t.latch = none ∧ t.pc = s.pc + 4#32) ∨ (t.latch.isSome = true ∧ t.pc = s.pc) ∨
      (t.latch = none ∧ ∃ rd rs1 imm, Fetches s (.jalr rd rs1 imm) ∧
        t.pc.toNat = 2 * (((s.readReg rs1).toNat + imm.toNat) % 2 ^ 32 / 2))) ∧
  (∀ bits : Word, opcodeOf bits = 0b1100011#7 ∨ opcodeOf bits = 0b1101111#7 →
    decode bits = .error (.unsupported bits))

/-! ### The ALU -/

/-- R99. Addition and subtraction modulo 2^32, the same whether the operands are read unsigned or signed; the corner
values. -/
def Obligations.AluAddsAndSubtractsModuloTwoToThe32 : Prop :=
  (∀ a b : Word,
    (alu .add a b).toNat = (a.toNat + b.toNat) % 2 ^ 32 ∧
    ((alu .sub a b).toNat : Int) = ((a.toNat : Int) - b.toNat) % 2 ^ 32 ∧
    ((alu .add a b).toNat : Int) = (a.toInt + b.toInt) % 2 ^ 32 ∧
    ((alu .sub a b).toNat : Int) = (a.toInt - b.toInt) % 2 ^ 32) ∧
  alu .add 0xFFFFFFFF#32 1#32 = 0#32 ∧ alu .add 0x7FFFFFFF#32 1#32 = 0x80000000#32 ∧
  alu .sub 0#32 1#32 = 0xFFFFFFFF#32 ∧ alu .sub 0x80000000#32 1#32 = 0x7FFFFFFF#32 ∧
  ∀ a : Word, alu .sub a a = 0#32

/-- R100. The three shifts, for the amount `sh = b[4:0]`: the integer laws, the bits (zeros enter, or the sign), the
amounts 0 and 31, and that no other bit of `b` counts. -/
def Obligations.AluShiftsByTheLowFiveBits : Prop :=
  ∀ a b : Word, ∀ sh : Nat, sh = b.toNat % 32 →
    (alu .sll a b).toNat = a.toNat * 2 ^ sh % 2 ^ 32 ∧
    (alu .srl a b).toNat = a.toNat / 2 ^ sh ∧
    ((alu .sra a b).toNat : Int) = a.toInt / 2 ^ sh % 2 ^ 32 ∧
    (∀ k : Nat, k < 32 →
      (alu .sll a b).getLsbD k = (decide (sh ≤ k) && a.getLsbD (k - sh)) ∧
      (alu .srl a b).getLsbD k = (decide (k + sh < 32) && a.getLsbD (k + sh)) ∧
      (alu .sra a b).getLsbD k = (if k + sh < 32 then a.getLsbD (k + sh) else a.getLsbD 31)) ∧
    (sh = 0 → alu .sll a b = a ∧ alu .srl a b = a ∧ alu .sra a b = a) ∧
    (sh = 31 → alu .sll a b = (if a.getLsbD 0 then 0x80000000#32 else 0#32) ∧
      alu .srl a b = (if a.getLsbD 31 then 1#32 else 0#32) ∧
      alu .sra a b = (if a.getLsbD 31 then 0xFFFFFFFF#32 else 0#32)) ∧
    (∀ b' : Word, b'.toNat % 32 = sh →
      alu .sll a b' = alu .sll a b ∧ alu .srl a b' = alu .srl a b ∧ alu .sra a b' = alu .sra a b)

/-- R101. SLT compares the two's-complement readings, SLTU the unsigned ones; the result is 0 or 1; equal operands give 0;
the corner values. -/
def Obligations.AluComparesSignedAndUnsigned : Prop :=
  (∀ a b : Word,
    alu .slt a b = (if a.toInt < b.toInt then 1#32 else 0#32) ∧
    alu .sltu a b = (if a.toNat < b.toNat then 1#32 else 0#32)) ∧
  (∀ a : Word, alu .slt a a = 0#32 ∧ alu .sltu a a = 0#32) ∧
  alu .slt 0x80000000#32 0x7FFFFFFF#32 = 1#32 ∧ alu .sltu 0x80000000#32 0x7FFFFFFF#32 = 0#32 ∧
  alu .slt 0xFFFFFFFF#32 0#32 = 1#32 ∧ alu .sltu 0xFFFFFFFF#32 0#32 = 0#32 ∧
  ∀ b : Word, alu .sltu 0#32 b = 1#32 ↔ b ≠ 0#32

/-- R102. The bitwise operations work on each of the 32 positions independently; XORI with immediate -1 is bitwise NOT, and
ANDI with a negative immediate keeps bits [31:11] of the source. -/
def Obligations.AluWorksBitByBit : Prop :=
  (∀ (a b : Word) (k : Nat), k < 32 →
    (alu .xor a b).getLsbD k = (a.getLsbD k ^^ b.getLsbD k) ∧
    (alu .or a b).getLsbD k = (a.getLsbD k || b.getLsbD k) ∧
    (alu .and a b).getLsbD k = (a.getLsbD k && b.getLsbD k)) ∧
  (∀ (rd rs1 : RegIdx) (s : State), ∃ t v, exec (.xori rd rs1 0xFFFFFFFF#32) s = .next t ∧
    WritesOnly rd v s t ∧ ∀ k : Nat, k < 32 → v.getLsbD k = !(s.readReg rs1).getLsbD k) ∧
  (∀ (rd rs1 : RegIdx) (imm : Word) (s : State), (-2048 ≤ imm.toInt ∧ imm.toInt < 0) →
    ∃ t v, exec (.andi rd rs1 imm) s = .next t ∧
      WritesOnly rd v s t ∧ ∀ k : Nat, 11 ≤ k → k < 32 → v.getLsbD k = (s.readReg rs1).getLsbD k)

/-! ### What each instruction does: it completes, its result, and all it leaves unchanged. `WritesOnly rd v s t`: x[rd] holds
v (0 if rd is x0), every other register, every byte of memory, the fault latch and the configuration are as before.
`Advances s t`: the pc is four further on, modulo 2^32 (the wrap is the spec's choice D5, log entry 5). -/

/-- LUI writes the U-immediate, AUIPC its sum with the instruction's own address. -/
def Obligations.UpperImmediatesComplete : Prop :=
  ∀ (rd : RegIdx) (imm : Word) (s : State),
    (∃ t, exec (.lui rd imm) s = .next t ∧ WritesOnly rd imm s t ∧ Advances s t) ∧
    (∃ t v, exec (.auipc rd imm) s = .next t ∧ v.toNat = (s.pc.toNat + imm.toNat) % 2 ^ 32 ∧
      WritesOnly rd v s t ∧ Advances s t)

/-- ADDI writes the sum modulo 2^32. -/
def Obligations.AddImmediateCompletes : Prop :=
  ∀ (rd rs1 : RegIdx) (imm : Word) (s : State),
    ∃ t v, exec (.addi rd rs1 imm) s = .next t ∧
      v.toNat = ((s.readReg rs1).toNat + imm.toNat) % 2 ^ 32 ∧ WritesOnly rd v s t ∧ Advances s t

/-- SLTI and SLTIU write 1 or 0: the signed and the unsigned comparison with the immediate. -/
def Obligations.SetLessThanImmediatesComplete : Prop :=
  ∀ (rd rs1 : RegIdx) (imm : Word) (s : State),
    (∃ t v, exec (.slti rd rs1 imm) s = .next t ∧
      v.toNat = (if (s.readReg rs1).toInt < imm.toInt then 1 else 0) ∧ WritesOnly rd v s t ∧ Advances s t) ∧
    (∃ t v, exec (.sltiu rd rs1 imm) s = .next t ∧
      v.toNat = (if (s.readReg rs1).toNat < imm.toNat then 1 else 0) ∧ WritesOnly rd v s t ∧ Advances s t)

/-- XORI, ORI, ANDI work bit by bit on the source and the immediate. -/
def Obligations.BitwiseImmediatesComplete : Prop :=
  ∀ (rd rs1 : RegIdx) (imm : Word) (s : State),
    (∃ t v, exec (.xori rd rs1 imm) s = .next t ∧
      (∀ k : Nat, k < 32 → v.getLsbD k = ((s.readReg rs1).getLsbD k ^^ imm.getLsbD k)) ∧
      WritesOnly rd v s t ∧ Advances s t) ∧
    (∃ t v, exec (.ori rd rs1 imm) s = .next t ∧
      (∀ k : Nat, k < 32 → v.getLsbD k = ((s.readReg rs1).getLsbD k || imm.getLsbD k)) ∧
      WritesOnly rd v s t ∧ Advances s t) ∧
    (∃ t v, exec (.andi rd rs1 imm) s = .next t ∧
      (∀ k : Nat, k < 32 → v.getLsbD k = ((s.readReg rs1).getLsbD k && imm.getLsbD k)) ∧
      WritesOnly rd v s t ∧ Advances s t)

/-- SLLI, SRLI, SRAI shift by the 5-bit amount. -/
def Obligations.ImmediateShiftsComplete : Prop :=
  ∀ (rd rs1 : RegIdx) (shamt : Shamt) (s : State),
    (∃ t v, exec (.slli rd rs1 shamt) s = .next t ∧
      v.toNat = (s.readReg rs1).toNat * 2 ^ shamt.toNat % 2 ^ 32 ∧ WritesOnly rd v s t ∧ Advances s t) ∧
    (∃ t v, exec (.srli rd rs1 shamt) s = .next t ∧
      v.toNat = (s.readReg rs1).toNat / 2 ^ shamt.toNat ∧ WritesOnly rd v s t ∧ Advances s t) ∧
    (∃ t v, exec (.srai rd rs1 shamt) s = .next t ∧
      v.toInt = (s.readReg rs1).toInt / 2 ^ shamt.toNat ∧ WritesOnly rd v s t ∧ Advances s t)

/-- ADD and SUB, modulo 2^32: the minuend is rs1, the subtrahend rs2. -/
def Obligations.AddAndSubComplete : Prop :=
  ∀ (rd rs1 rs2 : RegIdx) (s : State),
    (∃ t v, exec (.add rd rs1 rs2) s = .next t ∧
      v.toNat = ((s.readReg rs1).toNat + (s.readReg rs2).toNat) % 2 ^ 32 ∧
      WritesOnly rd v s t ∧ Advances s t) ∧
    (∃ t v, exec (.sub rd rs1 rs2) s = .next t ∧
      (v.toNat : Int) = ((s.readReg rs1).toNat - (s.readReg rs2).toNat : Int) % 2 ^ 32 ∧
      WritesOnly rd v s t ∧ Advances s t)

/-- SLL, SRL, SRA shift x[rs1] by the low five bits of x[rs2]. -/
def Obligations.RegisterShiftsComplete : Prop :=
  ∀ (rd rs1 rs2 : RegIdx) (s : State),
    (∃ t v, exec (.sll rd rs1 rs2) s = .next t ∧
      v.toNat = (s.readReg rs1).toNat * 2 ^ ((s.readReg rs2).toNat % 32) % 2 ^ 32 ∧
      WritesOnly rd v s t ∧ Advances s t) ∧
    (∃ t v, exec (.srl rd rs1 rs2) s = .next t ∧
      v.toNat = (s.readReg rs1).toNat / 2 ^ ((s.readReg rs2).toNat % 32) ∧
      WritesOnly rd v s t ∧ Advances s t) ∧
    (∃ t v, exec (.sra rd rs1 rs2) s = .next t ∧
      v.toInt = (s.readReg rs1).toInt / 2 ^ ((s.readReg rs2).toNat % 32) ∧
      WritesOnly rd v s t ∧ Advances s t)

/-- SLT and SLTU write 1 or 0: the signed and the unsigned comparison of two registers. -/
def Obligations.SetLessThanComplete : Prop :=
  ∀ (rd rs1 rs2 : RegIdx) (s : State),
    (∃ t v, exec (.slt rd rs1 rs2) s = .next t ∧
      v.toNat = (if (s.readReg rs1).toInt < (s.readReg rs2).toInt then 1 else 0) ∧
      WritesOnly rd v s t ∧ Advances s t) ∧
    (∃ t v, exec (.sltu rd rs1 rs2) s = .next t ∧
      v.toNat = (if (s.readReg rs1).toNat < (s.readReg rs2).toNat then 1 else 0) ∧
      WritesOnly rd v s t ∧ Advances s t)

/-- XOR, OR, AND work bit by bit on two registers. -/
def Obligations.BitwiseRegisterOpsComplete : Prop :=
  ∀ (rd rs1 rs2 : RegIdx) (s : State),
    (∃ t v, exec (.xor rd rs1 rs2) s = .next t ∧
      (∀ k : Nat, k < 32 → v.getLsbD k = ((s.readReg rs1).getLsbD k ^^ (s.readReg rs2).getLsbD k)) ∧
      WritesOnly rd v s t ∧ Advances s t) ∧
    (∃ t v, exec (.or rd rs1 rs2) s = .next t ∧
      (∀ k : Nat, k < 32 → v.getLsbD k = ((s.readReg rs1).getLsbD k || (s.readReg rs2).getLsbD k)) ∧
      WritesOnly rd v s t ∧ Advances s t) ∧
    (∃ t v, exec (.and rd rs1 rs2) s = .next t ∧
      (∀ k : Nat, k < 32 → v.getLsbD k = ((s.readReg rs1).getLsbD k && (s.readReg rs2).getLsbD k)) ∧
      WritesOnly rd v s t ∧ Advances s t)

/-- JALR: the link is the fetch address plus 4 modulo 2^32, the next pc is the sum modulo 2^32 with bit 0 cleared, whatever
its alignment and whether or not it is mapped. The base is the old x[rs1] also when rd = rs1 (D6, log entry 6). -/
def Obligations.JalrCompletes : Prop :=
  ∀ (rd rs1 : RegIdx) (imm : Word) (s : State),
    ∃ t link, exec (.jalr rd rs1 imm) s = .next t ∧
      link.toNat = (s.pc.toNat + 4) % 2 ^ 32 ∧ WritesOnly rd link s t ∧
      t.pc.toNat = 2 * (((s.readReg rs1).toNat + imm.toNat) % 2 ^ 32 / 2)

/-- FENCE: the pc advances, nothing else changes. -/
def Obligations.FenceCompletes : Prop :=
  ∀ s : State, ∃ t, exec .fence s = .next t ∧ Advances s t ∧ SameRegs s t ∧ SameRest s t

/-- Of R173: a running machine that fetches a JALR: the link, unless its register is x0, is the fetch address plus 4, the
next fetch is at exactly the target, and the pc is not incremented again. The wrap of the link is the spec's choice D5
(log entry 5), the old x[rs1] in the target when rd = rs1 is D6 (log entry 6). -/
def Obligations.NextFetchIsExactlyTheJalrTarget : Prop :=
  ∀ (s : State) (rd rs1 : RegIdx) (imm target : Word), s.latch = none → Fetches s (.jalr rd rs1 imm) →
    target = (s.readReg rs1 + imm) &&& 0xFFFFFFFE#32 →
    ∃ t, step s = .next t ∧ t.latch = none ∧ t.pc = target ∧ fetch t = memRead t target .word ∧
      (rd ≠ 0#5 → t.readReg rd = s.pc + 4#32)

/-- Of R103 and R92 (D6, log entry 6): every instruction completes; it writes at most one register, its destination, and no
memory; with destination x0 its result is discarded; and the value it writes does not depend on which register is the
destination, so an instruction whose destination is a source reads the old value. -/
def Obligations.AtMostOneRegisterAndThePcChange : Prop :=
  ∀ (i : Instr) (s : State), ∃ t, exec i s = .next t ∧ SameRest s t ∧
    (i.rd? = none → SameRegs s t) ∧ (i.rd? = some 0#5 → SameRegs s t) ∧
    (∀ rd, i.rd? = some rd → SameRegsBut rd s t ∧
      ∀ rd' : RegIdx, rd ≠ 0#5 → rd' ≠ 0#5 →
        ∃ u, exec (i.withRd rd') s = .next u ∧ u.readReg rd' = t.readReg rd ∧ SameRegsBut rd' s u)

/-- An instruction learns nothing but its named source registers and the pc: two states that agree on those get the same
result and the same next pc, whatever else they hold. -/
def Obligations.ResultDependsOnNamedSourcesOnly : Prop :=
  ∀ (i : Instr) (s u : State), s.pc = u.pc →
    (∀ r, i.rs1? = some r → s.readReg r = u.readReg r) →
    (∀ r, i.rs2? = some r → s.readReg r = u.readReg r) →
    ∃ s' u', exec i s = .next s' ∧ exec i u = .next u' ∧ s'.pc = u'.pc ∧
      ∀ rd, i.rd? = some rd → s'.readReg rd = u'.readReg rd

/-! ### The decoder -/

/-- R64, R65. Where the immediates of a decoded instruction come from, and that SLTIU compares the sign-extended one as
unsigned; with them the shift amount of R66. -/
def Obligations.ImmediatesComeFromTheirBits : Prop :=
  ∀ (bits : Word) (i : Instr), decode bits = .ok i →
    (∀ imm, i.immI? = some imm →
      (∀ k : Nat, k < 12 → imm.getLsbD k = bits.getLsbD (20 + k)) ∧
      (∀ k : Nat, 12 ≤ k → k < 32 → imm.getLsbD k = bits.getLsbD 31) ∧
      -2048 ≤ imm.toInt ∧ imm.toInt ≤ 2047) ∧
    (∀ imm, i.immU? = some imm → imm = bits &&& 0xFFFFF000#32 ∧ imm.toNat = bits.toNat / 2 ^ 12 * 2 ^ 12) ∧
    (∀ shamt, i.shamt? = some shamt → shamt.toNat = bits.toNat / 2 ^ 20 % 2 ^ 5) ∧
    (∀ rd rs1 imm, i = .sltiu rd rs1 imm → ∀ s : State, ∃ t, exec i s = .next t ∧
      (rd ≠ 0#5 → t.readReg rd = if (s.readReg rs1).toNat < imm.toNat then 1#32 else 0#32))

/-- The register fields of R62: rd is bits[11:7], rs1 bits[19:15], rs2 bits[24:20]. -/
def Obligations.RegisterFieldsComeFromTheirBits : Prop :=
  ∀ (bits : Word) (i : Instr), decode bits = .ok i →
    (∀ rd, i.rd? = some rd → rd.toNat = bits.toNat / 2 ^ 7 % 2 ^ 5) ∧
    (∀ rs1, i.rs1? = some rs1 → rs1.toNat = bits.toNat / 2 ^ 15 % 2 ^ 5) ∧
    (∀ rs2, i.rs2? = some rs2 → rs2.toNat = bits.toNat / 2 ^ 20 % 2 ^ 5)

/-- The round trip of R81, in words and in bytes: for every well-formed instruction, decode of encode gives it back with
every operand. -/
def Obligations.DecodeOfEncodeIsTheInstruction : Prop :=
  ∀ i : Instr, i.wf = true →
    decode (encode i) = .ok i ∧ ∀ rest : List Byte, decodeBytes (encodeBytes i ++ rest) = .ok (i, rest)

/-- The converse of R81: a decoded instruction is well-formed, and its encoding is the word it came from, except for a FENCE
with a nonzero ignored bit (D4, log entry 4); so two words of one instruction other than FENCE are equal. -/
def Obligations.EncodeOfDecodeIsTheWord : Prop :=
  (∀ (bits : Word) (i : Instr), decode bits = .ok i →
    i.wf = true ∧ (i ≠ .fence ∨ bits &&& 0xFFFF8F80#32 = 0#32 → encode i = bits)) ∧
  (∀ (b c : Word) (i : Instr), decode b = .ok i → decode c = .ok i → i ≠ .fence → b = c)

/-- The decoder follows the opcode map of R69 to R75: a word decodes to an instruction of a row's mnemonic exactly when the
row's mask and match cover it, and a word no row covers is refused with the word. The values of the map are the
spec's choices D1 to D4 (log entries 2, 3, 4). -/
def Obligations.DecoderFollowsTheOpcodeMap : Prop :=
  ∀ bits : Word,
    (∀ row ∈ opcodeTable, (bits &&& row.mask = row.value ↔
      ∃ i, decode bits = .ok i ∧ i.mnemonic = row.mnemonic)) ∧
    ((∀ row ∈ opcodeTable, bits &&& row.mask ≠ row.value) → decode bits = .error (.unsupported bits))

/-- R67. For each word either exactly one instruction or the fault, which carries the word; no word matches two rows. -/
def Obligations.EveryWordHasOneDecoding : Prop :=
  (∀ bits : Word,
    ((∃ i, decode bits = .ok i ∧ ∀ j, decode bits = .ok j → j = i) ∧ decode bits ≠ .error (.unsupported bits)) ∨
      (decode bits = .error (.unsupported bits) ∧ ∀ i, decode bits ≠ .ok i)) ∧
  opcodeTable.Pairwise (fun r q => ∀ bits : Word, ¬(r.covers bits = true ∧ q.covers bits = true))

/-- Words of the spec's vectors (95_test_vectors.md section 2.1), written out from the encodings: one of each family, field
extremes, and words that are refused. The numbers are the spec's choice D1 (log entry 2); that 0xFFFF8F8F is a FENCE and 0x0000100F is
refused is D4 (log entry 4), that 0x027302B3 is refused is D2 (log entry 3). -/
def Obligations.ListedWordsDecodeAsTheSpecSays : Prop :=
  decode 0x123452B7#32 = .ok (.lui 5#5 0x12345000#32) ∧
  decode 0x00001297#32 = .ok (.auipc 5#5 0x00001000#32) ∧
  decode 0xFFF03193#32 = .ok (.sltiu 3#5 0#5 0xFFFFFFFF#32) ∧
  decode 0x41F0D093#32 = .ok (.srai 1#5 1#5 31#5) ∧
  decode 0x407302B3#32 = .ok (.sub 5#5 6#5 7#5) ∧
  decode 0x80000067#32 = .ok (.jalr 0#5 0#5 0xFFFFF800#32) ∧
  decode 0xFFFF8F8F#32 = .ok .fence ∧
  decode 0x00000000#32 = .error (.unsupported 0x00000000#32) ∧
  decode 0x027302B3#32 = .error (.unsupported 0x027302B3#32) ∧
  decode 0x0000100F#32 = .error (.unsupported 0x0000100F#32)

/-! ### The router -/

/-- R38. Multi-byte values are little-endian, for data and for the fetch alike: the k-th byte of a value that is read, data
or instruction, is the byte k addresses further on; and after a write of a word, its bytes, its two halves, the word
itself and a fetch at its address read as the rule's example says, for every value. -/
def Obligations.MultiByteValuesAreLittleEndian : Prop :=
  (∀ (s : State) (a v : Word) (w : Width), s.cfg.wf = true → memRead s a w = .ok v →
    ∀ k : Nat, k < w.bytes → memRead s (a + BitVec.ofNat 32 k) .byte = .ok ((v >>> (8 * k)) &&& 0xFF#32)) ∧
  (∀ (s : State) (v : Word), s.cfg.wf = true → fetch s = .ok v →
    ∀ k : Nat, k < 4 → memRead s (s.pc + BitVec.ofNat 32 k) .byte = .ok ((v >>> (8 * k)) &&& 0xFF#32)) ∧
  (∀ (s t : State) (a v : Word), s.cfg.wf = true → Memory.wf s.mem → memWrite s a .word v = .next t →
    (∀ k : Nat, k < 4 →
      memRead t (a + BitVec.ofNat 32 k) .byte = .ok ((v >>> (8 * k)) &&& 0xFF#32)) ∧
    memRead t a .half = .ok (v &&& 0xFFFF#32) ∧ memRead t (a + 2#32) .half = .ok (v >>> 16) ∧
    memRead t a .word = .ok v ∧ fetch { t with pc := a } = .ok v)

/-- The read of R36: the value is the sum of its bytes, the k-th weighted by 2^(8k), with the upper bits zero (the zero
extension is the spec's choice D11, log entry 13). -/
def Obligations.ReadIsTheSumOfItsBytes : Prop :=
  ∀ (s : State) (a v : Word) (w : Width), s.cfg.wf = true → memRead s a w = .ok v →
    ∃ b : Nat → Word, (∀ k : Nat, k < w.bytes → memRead s (a + BitVec.ofNat 32 k) .byte = .ok (b k)) ∧
      v.toNat = ((List.range w.bytes).map (fun k => (b k).toNat * 2 ^ (8 * k))).sum ∧
      v.toNat < 2 ^ (8 * w.bytes)

/-- R33. An address in no region: AddressFault, for reads and writes of every width and for the fetch. -/
def Obligations.UnmappedAddressFaults : Prop :=
  ∀ (s : State) (a : Word),
    (∀ r ∈ s.cfg.regions, ¬(r.base.toNat ≤ a.toNat ∧ a.toNat < r.base.toNat + r.size)) →
    (∀ w : Width, memRead s a w = .error (.addressFault a) ∧
      ∀ v : Word, memWrite s a w v = .fault (.addressFault a)) ∧
    fetch { s with pc := a } = .error (.addressFault a)

/-- R35. A write whose address lies in a read-only region is a WriteProtectFault, whatever the width and the value; reads of
it inside the region succeed. -/
def Obligations.ReadOnlyRegionsRefuseWrites : Prop :=
  ∀ (s : State) (r : Region) (a : Word) (w : Width), s.cfg.wf = true → r ∈ s.cfg.regions → r.policy = .ro →
    r.base.toNat ≤ a.toNat → a.toNat < r.base.toNat + r.size →
    (∀ v : Word, memWrite s a w v = .fault (.writeProtectFault a)) ∧
    (a.toNat + w.bytes ≤ r.base.toNat + r.size → ∃ v, memRead s a w = .ok v)

/-- All outcomes of the bus (R33, R34, R35, R40), exactly: a read succeeds when one region contains the whole access, and
else is an AddressFault; a write is an AddressFault when no region contains the address, a WriteProtectFault when a
read-only one does, also when it would cross the end, an AddressFault when it crosses a read-write region's end, and
else succeeds. An access is never split. The order of the checks is D9, the unbounded comparison D13, the table's
constraints D12 (log entries 12, 14, 11). -/
def Obligations.BusOutcomesAreExactlyThese : Prop :=
  ∀ (s : State) (a : Word) (w : Width), s.cfg.wf = true →
    ((∃ v, memRead s a w = .ok v) ↔
      ∃ r ∈ s.cfg.regions, r.base.toNat ≤ a.toNat ∧ a.toNat + w.bytes ≤ r.base.toNat + r.size) ∧
    (∀ f, memRead s a w = .error f → f = .addressFault a) ∧
    ∀ v : Word,
      (memWrite s a w v = .fault (.writeProtectFault a) ↔
        ∃ r ∈ s.cfg.regions, r.policy = .ro ∧ r.base.toNat ≤ a.toNat ∧ a.toNat < r.base.toNat + r.size) ∧
      ((∃ t, memWrite s a w v = .next t) ↔
        ∃ r ∈ s.cfg.regions, r.policy = .rw ∧ r.base.toNat ≤ a.toNat ∧
          a.toNat + w.bytes ≤ r.base.toNat + r.size) ∧
      ((∃ t, memWrite s a w v = .next t) ∨ memWrite s a w v = .fault (.writeProtectFault a) ∨
        memWrite s a w v = .fault (.addressFault a))

/-- Of R32: at most one region contains an address, the access resolves to it, and the order in which the table is searched
changes no answer. -/
def Obligations.RegionOrderChangesNoAnswer : Prop :=
  ∀ (s u : State), s.cfg.wf = true → u.mem = s.mem → u.cfg.regions.Perm s.cfg.regions →
    (∀ (r : Region) (a : Word), r ∈ s.cfg.regions → r.base.toNat ≤ a.toNat → a.toNat < r.base.toNat + r.size →
      regionAt s.cfg.regions a = some r ∧ regionAt u.cfg.regions a = some r) ∧
    (∀ (a : Word) (w : Width), memRead u a w = memRead s a w)

/-- No alignment requirement (R39, D16, log entry 15): an access inside a region succeeds at every address, a fetch too; and
the only way a pc that is not a multiple of 4 arises from one that is, is a JALR whose target is 2 modulo 4. -/
def Obligations.NoAlignmentIsRequired : Prop :=
  (∀ (s : State) (r : Region) (a : Word) (w : Width), s.cfg.wf = true → r ∈ s.cfg.regions →
    r.base.toNat ≤ a.toNat → a.toNat + w.bytes ≤ r.base.toNat + r.size →
    (∃ v, memRead s a w = .ok v) ∧ (r.policy = .rw → ∀ v, ∃ t, memWrite s a w v = .next t) ∧
    (a.toNat + 4 ≤ r.base.toNat + r.size → ∃ v, fetch { s with pc := a } = .ok v ∧
      ∀ k : Nat, k < 4 → memRead s (a + BitVec.ofNat 32 k) .byte = .ok ((v >>> (8 * k)) &&& 0xFF#32))) ∧
  (∀ s t : State, step s = .next t → s.pc.toNat % 4 = 0 → t.pc.toNat % 4 ≠ 0 →
    t.pc.toNat % 4 = 2 ∧ ∃ rd rs1 imm, Fetches s (.jalr rd rs1 imm))

/-- The write of R37: the bytes of the access hold the low bytes of the value, least significant lowest; every byte outside
them, every register, the pc, the latch and the configuration are as before. That bits of the value above the width
are ignored is D11 (log entry 13). -/
def Obligations.BusWriteChangesOnlyItsBytes : Prop :=
  ∀ (s t : State) (a v : Word) (w : Width), s.cfg.wf = true → Memory.wf s.mem → memWrite s a w v = .next t →
    (∀ k : Nat, k < w.bytes →
      memRead t (a + BitVec.ofNat 32 k) .byte = .ok ((v >>> (8 * k)) &&& 0xFF#32)) ∧
    (∀ b : Word, b.toNat < a.toNat ∨ a.toNat + w.bytes ≤ b.toNat → memRead t b .byte = memRead s b .byte) ∧
    SameRegs s t ∧ t.pc = s.pc ∧ t.latch = s.latch ∧ t.cfg = s.cfg

/-- R42. Every region is plain byte storage: after any list of successful writes a byte reads the last value written to it,
or what it held before; and writing the same value twice is the same as writing it once. -/
def Obligations.RegionsArePlainStorage : Prop :=
  (∀ (s t : State) (ws : List (Word × Width × Word)) (b : Word), Memory.wf s.mem → busWrites s ws = .next t →
    memRead t b .byte =
      match lastByte? ws b with
      | some v => .ok (v.zeroExtend 32)
      | none => memRead s b .byte) ∧
  (∀ (s t : State) (a v : Word) (w : Width), Memory.wf s.mem → memWrite s a w v = .next t →
    memWrite t a w v = .next t)

/-- A bus write keeps what the invariant says of the storage: a sound configuration, the canonical form, every listed byte
inside a region (the canonical form is the model's own, log entry 18). -/
def Obligations.BusWriteKeepsTheStorageForm : Prop :=
  ∀ (s t : State) (a v : Word) (w : Width), s.cfg.wf = true → Memory.wf s.mem → CellsMapped s →
    memWrite s a w v = .next t → t.cfg.wf = true ∧ Memory.wf t.mem ∧ CellsMapped t

/-! ### The step and its faults -/

/-- A step runs the decoded instruction (R90). The step adds nothing around it: the instruction's meaning commits the pc
itself. -/
def Obligations.StepRunsTheDecodedInstruction : Prop :=
  ∀ (s : State) (bits : Word) (i : Instr), s.latch = none → fetch s = .ok bits → decode bits = .ok i →
    step s = exec i s

/-- A halted machine never changes (R195): every number of steps leaves it as it is, its first fault record included. The
sticky latch is the spec's choice D8 (log entry 7); that nobody but the steps acts is D21 (log entry 17). -/
def Obligations.HaltedMachineNeverChanges : Prop :=
  ∀ (s : State) (rec : FaultRec) (k : Nat), s.latch = some rec → run k s = .next s

/-- The fetch fault of R192, R195, R196: no region contains the four bytes at the pc: the step sets the latch, records kind,
pc and the start address, and changes nothing else. The latch is D8, the record D22 (log entries 7, 8). -/
def Obligations.FetchFaultOnlySetsTheLatch : Prop :=
  ∀ s : State, s.latch = none → s.cfg.wf = true →
    (¬∃ r ∈ s.cfg.regions, r.base.toNat ≤ s.pc.toNat ∧ s.pc.toNat + 4 ≤ r.base.toNat + r.size) →
    step s = .next { s with latch := some ⟨.addressFault, s.pc, some s.pc, none⟩ }

/-- The decode fault of R191, R195, R196: the fetched word matches no row: the step sets the latch, records kind, pc and the
word, and changes nothing else. The latch is D8, the record D22 (log entries 7, 8). -/
def Obligations.DecodeFaultOnlySetsTheLatch : Prop :=
  ∀ (s : State) (bits : Word), s.latch = none → fetch s = .ok bits →
    (∀ row ∈ opcodeTable, bits &&& row.mask ≠ row.value) →
    step s = .next { s with latch := some ⟨.decodeFault, s.pc, none, some bits⟩ }

/-- A step always answers a next state, and a running machine is halted by it exactly when the fetch or the decoder fails:
execution cannot fault (R91, R198). The latch is D8 (log entry 7). -/
def Obligations.StepHaltsExactlyOnFetchOrDecodeFault : Prop :=
  ∀ s : State, ∃ t, step s = .next t ∧ SameBytes s t ∧ t.cfg = s.cfg ∧
    (s.latch = none →
      (t.latch = none ↔ ∃ bits i, fetch s = .ok bits ∧ decode bits = .ok i) ∧
      (t.latch.isSome = true → SameRegs s t ∧ t.pc = s.pc))

/-- Faults are precise, over every run (R195, R200, R208): a run of a running machine that ends halted stopped at some step
before its end, at a state reached without a fault whose fetch or decoding fails, and it ends in that very state but
for the fault recorded there. The latch is D8, the record D22 (log entries 7, 8); that a run is steps alone is D21 (log
entry 17). -/
def Obligations.EveryHaltIsPrecise : Prop :=
  ∀ (s t : State) (k : Nat) (rec : FaultRec), s.latch = none → run k s = .next t → t.latch = some rec →
    ∃ (j : Nat) (u : State) (f : Fault), j < k ∧ run j s = .next u ∧ u.latch = none ∧
      stepFault? u = some f ∧ rec = f.record u.pc ∧ t = { u with latch := some rec }

/-- A JALR to its own address loops forever (R170, R208): with x0 as its link register every number of steps leaves the
machine as it is, and no fault is ever recorded. That nobody but the steps acts is the spec's choice D21 (log entry
17). -/
def Obligations.SelfJumpRunsForever : Prop :=
  ∀ (s : State) (rs1 : RegIdx) (imm : Word) (k : Nat), s.latch = none → Fetches s (.jalr 0#5 rs1 imm) →
    2 * (((s.readReg rs1).toNat + imm.toNat) % 2 ^ 32 / 2) = s.pc.toNat →
    run k s = .next s ∧ SafeRun k s

/-- The record on ports (R196, R197): the code of the kind, 1 for a decode fault and 2 for an address fault, and 0 for an
absent field. Codes and fields are D10 and D22 (log entry 8). -/
def Obligations.FaultPortShowsTheRecord : Prop :=
  (∀ (s : State), s.faultPort.halted = s.halted) ∧
  (∀ (s : State) (bits : Word), s.latch = none → fetch s = .ok bits → decode bits = .error (.unsupported bits) →
    ∃ t, step s = .next t ∧ t.faultPort = ⟨true, 1, s.pc, 0#32, bits⟩) ∧
  (∀ (s : State) (f : Fault), s.latch = none → fetch s = .error f →
    ∃ t, step s = .next t ∧ t.faultPort = ⟨true, 2, s.pc, s.pc, 0#32⟩)

/-! ### The invariant -/

/-- Every step keeps the invariant: a sound configuration, canonical byte storage inside the regions, and a fault record that
still tells why the machine stopped (its kind one of the two a step can raise, its pc the pc, its fields those of its
kind). -/
def Obligations.StepKeepsTheInvariant : Prop :=
  ∀ s t : State, s.Inv → step s = .next t → t.Inv

/-- The reset state meets the invariant. It is the state of the example configuration (the model's choice, log entry 9), its
storage in the model's canonical form (log entry 18). -/
def Obligations.ResetMeetsTheInvariant : Prop := State.reset.Inv

/-- Power-up of every sound configuration meets the invariant. -/
def Obligations.PowerUpMeetsTheInvariant : Prop :=
  ∀ (c : Config) (t : State), powerUp c = .next t → t.Inv

/-! ### Reset and boot -/

/-- R221, R223. After power-up the pc is the base of the executable region, the first word fetched is the one there, and every
byte of every read-write region is zero; in the example configuration the reset pc is 0x0000_1000. -/
def Obligations.PowerUpSetsThePcAndClearsRam : Prop :=
  (∀ (c : Config) (t : State), powerUp c = .next t →
    (∃ r, c.regions[c.execIndex]? = some r ∧ t.pc = r.base ∧ fetch t = memRead t r.base .word) ∧
    ∀ r ∈ c.regions, r.policy = .rw → ∀ a : Word, r.base.toNat ≤ a.toNat → a.toNat < r.base.toNat + r.size →
      memRead t a .byte = .ok 0#32) ∧
  (∃ t, powerUp Config.example1 = .next t ∧ t.pc = 0x00001000#32)

/-- Of R222, R224, R225, R226: after power-up a read-only region holds its image, or zero when absent, the registers hold
XREG_INIT, the machine runs, and it holds its configuration. The image's size is D15, the open XREG_INIT D7, the
latch D8 (log entries 10, 1, 7). -/
def Obligations.PowerUpLoadsTheImageAndRuns : Prop :=
  ∀ (c : Config) (t : State), powerUp c = .next t →
    ResetBytes t ∧ t.cfg = c ∧ t.halted = false ∧ t.readReg 0#5 = 0#32 ∧
    ∀ k : Fin 31, t.readReg (BitVec.ofNat 5 (k.val + 1)) = c.xregInit[k]

/-- The constraints of R6 and R31, in the model's reading: power-up answers a machine exactly when every region has `size >= 1` and
`base + size <= 2^32`, an image of its size if it is read-only and none if not, no two regions share an address, and
EXEC_REGION names a region; else it refuses. Refusing is the spec's "may" (D12, U2, U4; log entry 11). Refusing an image
in a read-write region and taking an EXEC_REGION of either policy are the model's choices (log entry 22). -/
def Obligations.PowerUpRefusesExactlyIllFormedConfigurations : Prop :=
  ∀ c : Config,
    ((∃ t, powerUp c = .next t) ↔
      (∀ r ∈ c.regions, 1 ≤ r.size ∧ r.base.toNat + r.size ≤ 2 ^ 32 ∧
        ∀ bytes, r.image = some bytes → r.policy = .ro ∧ bytes.length = r.size) ∧
      c.regions.Pairwise (fun r q => ∀ n : Nat,
        ¬((r.base.toNat ≤ n ∧ n < r.base.toNat + r.size) ∧ (q.base.toNat ≤ n ∧ n < q.base.toNat + q.size))) ∧
      c.execIndex < c.regions.length) ∧
    ((¬∃ t, powerUp c = .next t) → powerUp c = .refused .illFormedConfiguration)

/-- The reset input starts a new run from the same values (R220): asserted at any point of any run from power-up, halted or
not, it answers the state after power-up. The reset input is the spec's choice D14 (log entry 23);
that nobody but the steps acts before it is D21 (log entry 17). -/
def Obligations.ResetInputStartsANewRun : Prop :=
  ∀ (c : Config) (s t : State) (k : Nat), powerUp c = .next s → run k s = .next t → assertReset t = .next s

/-- Along every run from power-up no byte of memory changes (R49): a read-only byte reads its image, a read-write byte zero.
That nobody but the steps writes during a run is the spec's choice D21 (log entry 17), the size of an image D15 (log
entry 10). -/
def Obligations.NoRunChangesMemory : Prop :=
  ∀ (c : Config) (s t : State) (k : Nat), powerUp c = .next s → run k s = .next t →
    ResetBytes t ∧ t.cfg = c ∧ SameBytes s t

/-- Of the state after reset in the example configuration (R44, R226): the pc, that it runs, and its map: every byte of ROM and RAM reads zero, every other address
is unmapped, ROM refuses writes and RAM takes them. The map is the source's example (log entry 9); the zero registers,
a choice of the model (log entry 1), are not stated. -/
def Obligations.ResetStateHasTheExampleMap : Prop :=
  State.reset.pc = 0x00001000#32 ∧ State.reset.halted = false ∧
  ∀ a : Word,
    memRead State.reset a .byte =
      (if (0x1000 ≤ a.toNat ∧ a.toNat ≤ 0x1FFF) ∨ (0x80000000 ≤ a.toNat ∧ a.toNat ≤ 0x800FFFFF) then .ok 0#32
       else .error (.addressFault a)) ∧
    ∀ v : Word,
      (memWrite State.reset a .byte v = .fault (.writeProtectFault a) ↔ 0x1000 ≤ a.toNat ∧ a.toNat ≤ 0x1FFF) ∧
      ((∃ t, memWrite State.reset a .byte v = .next t) ↔ 0x80000000 ≤ a.toNat ∧ a.toNat ≤ 0x800FFFFF)
end

