-- ==== Sys2Proof/Laws/Alu.lean ====
section
/-! SUPPORT. What the ALU's parts, the operand forms and the jump target come to as numbers. -/

namespace Sys2Proof.Machine

variable (s : State)

@[simp] theorem value_zero : Operand.value s .zero = 0#32 := rfl
@[simp] theorem value_pc : Operand.value s .pc = s.pc := rfl
@[simp] theorem value_reg (i : RegIdx) : Operand.value s (.reg i) = s.readReg i := rfl
@[simp] theorem value_imm (v : Word) : Operand.value s (.imm v) = v := rfl
@[simp] theorem value_shamt (n : Shamt) : Operand.value s (.shamt n) = n.zeroExtend 32 := rfl

/-- A comparison's result as a number. -/
theorem toNat_truth (b : Bool) : (truth b).toNat = if b then 1 else 0 := by cases b <;> rfl

/-- The shift amount is the operand modulo 32 (R100). -/
theorem shiftAmount_eq (b : Word) : shiftAmount b = b.toNat % 32 := by
  simp [shiftAmount, BitVec.extractLsb'_toNat]

/-- A shift amount of an immediate shift is used as it is: it is below 32 (R66). -/
theorem shiftAmount_shamt (n : Shamt) : shiftAmount (n.zeroExtend 32) = n.toNat := by
  rw [shiftAmount_eq]
  have := n.isLt
  simp
  omega

/-- Clearing bit 0 rounds down to an even number. -/
theorem toNat_clear_bit0 (x : Word) : (x &&& 0xFFFFFFFE#32).toNat = 2 * (x.toNat / 2) := by
  have h : x &&& 0xFFFFFFFE#32 = (x >>> 1) <<< 1 := by
    apply BitVec.eq_of_getLsbD_eq
    intro i hi
    rw [BitVec.getLsbD_and, BitVec.getLsbD_shiftLeft, BitVec.getLsbD_ushiftRight]
    interval_cases i <;> simp
  have := x.isLt
  rw [h]
  simp only [BitVec.toNat_shiftLeft, BitVec.toNat_ushiftRight, Nat.shiftRight_eq_div_pow, Nat.shiftLeft_eq]
  omega

/-- JALR's target as a number (R170). -/
theorem toNat_jumpTarget (b imm : Word) :
    (jumpTarget b imm).toNat = 2 * ((b.toNat + imm.toNat) % 2 ^ 32 / 2) := by
  rw [jumpTarget, toNat_clear_bit0]
  simp [alu, BitVec.toNat_add]

end Sys2Proof.Machine
end

