-- ==== Sys2Proof/Laws/Memory.lean ====
section
/-! SUPPORT. Byte storage: a read after a write, and that every write keeps the canonical form. -/

namespace Sys2Proof.Machine.Memory

/-- The addresses above the first cell's are the only ones the rest lists. -/
theorem read_below {m : Memory} {a : Nat} (h : ∀ c ∈ m, a < c.1) : read m a = unlisted := by
  induction m with
  | nil => rfl
  | cons c m ih =>
    obtain ⟨k, b⟩ := c
    have hk : a < k := h (k, b) (by simp)
    have : k ≠ a := by omega
    simp only [read, this, if_false]
    exact ih fun c hc => h c (by simp [hc])

theorem wf_nil : wf [] := ⟨.nil, by simp⟩

theorem wf_tail {c : Host.Cell} {m : Memory} (h : wf (c :: m)) : wf m :=
  ⟨(List.pairwise_cons.1 h.1).2, fun d hd => h.2 d (by simp [hd])⟩

theorem head_lt {c d : Host.Cell} {m : Memory} (h : wf (c :: m)) (hd : d ∈ m) : c.1 < d.1 :=
  (List.pairwise_cons.1 h.1).1 d hd

/-- What a write puts into the list: its own cell, or cells that stood there. -/
theorem mem_write {m : Memory} {a : Nat} {v : Byte} {c : Host.Cell} (h : c ∈ write m a v) :
    c = (a, v) ∧ v ≠ unlisted ∨ c ∈ m := by
  induction m with
  | nil =>
    simp only [write] at h
    split at h
    · cases h
    · exact .inl ⟨by simpa using h, ‹_›⟩
  | cons d m ih =>
    obtain ⟨k, b⟩ := d
    simp only [write] at h
    split at h
    · split at h
      · exact .inr h
      · rcases List.mem_cons.1 h with rfl | h
        · exact .inl ⟨rfl, ‹_›⟩
        · exact .inr h
    · split at h
      · split at h
        · exact .inr (by simp [h])
        · rcases List.mem_cons.1 h with rfl | h
          · exact .inl ⟨rfl, ‹_›⟩
          · exact .inr (by simp [h])
      · rcases List.mem_cons.1 h with rfl | h
        · exact .inr (by simp)
        · rcases ih h with h | h
          · exact .inl h
          · exact .inr (by simp [h])

/-- A write keeps the canonical form. -/
theorem wf_write {m : Memory} (h : wf m) (a : Nat) (v : Byte) : wf (write m a v) := by
  induction m with
  | nil =>
    simp only [write]
    split
    · exact wf_nil
    · exact ⟨by simp, by simpa using ‹_›⟩
  | cons d m ih =>
    obtain ⟨k, b⟩ := d
    simp only [write]
    split
    · split
      · exact h
      · refine ⟨List.pairwise_cons.2 ⟨?_, h.1⟩, ?_⟩
        · intro c hc
          rcases List.mem_cons.1 hc with rfl | hc
          · assumption
          · exact lt_trans ‹_› (head_lt h hc)
        · intro c hc
          rcases List.mem_cons.1 hc with rfl | hc
          · assumption
          · exact h.2 c hc
    · split
      · rename_i hak
        subst hak
        split
        · exact wf_tail h
        · refine ⟨List.pairwise_cons.2 ⟨fun c hc => (head_lt h hc : a < c.1), (wf_tail h).1⟩, ?_⟩
          intro c hc
          rcases List.mem_cons.1 hc with rfl | hc
          · assumption
          · exact (wf_tail h).2 c hc
      · refine ⟨List.pairwise_cons.2 ⟨?_, (ih (wf_tail h)).1⟩, ?_⟩
        · intro c hc
          rcases mem_write hc with ⟨rfl, -⟩ | hc
          · simp only
            omega
          · exact head_lt h hc
        · intro c hc
          rcases List.mem_cons.1 hc with rfl | hc
          · exact h.2 _ (by simp)
          · exact (ih (wf_tail h)).2 c hc

/-- A read after a write, in one equation. -/
theorem read_write {m : Memory} (h : wf m) (a b : Nat) (v : Byte) :
    read (write m a v) b = if b = a then v else read m b := by
  induction m with
  | nil =>
    simp only [write]
    split
    · simp only [read]; split <;> simp_all
    · simp only [read]; split <;> split <;> first | rfl | omega
  | cons d m ih =>
    obtain ⟨k, c⟩ := d
    have hlow : ∀ x, x ≤ k → x ≠ k → read m x = unlisted := by
      intro x hx hne
      apply read_below
      intro e he
      have := head_lt h he
      simp only at this
      omega
    simp only [write]
    split
    · split
      · rename_i hv
        by_cases hb : b = a
        · subst hb
          have hk : k ≠ b := by omega
          simp [read, hk, hlow b (by omega) (by omega), hv]
        · simp [hb]
      · by_cases hb : b = a
        · subst hb; simp [read]
        · have : a ≠ b := fun e => hb e.symm
          simp [read, hb, this]
    · split
      · rename_i hak
        subst hak
        split
        · rename_i hv
          by_cases hb : b = a
          · subst hb
            have : read m b = unlisted := read_below fun e he => head_lt h he
            simp [this, hv]
          · have : a ≠ b := fun e => hb e.symm
            simp [read, hb, this]
        · by_cases hb : b = a
          · subst hb; simp [read]
          · have : a ≠ b := fun e => hb e.symm
            simp [read, hb, this]
      · by_cases hk : k = b
        · subst hk
          have : k ≠ a := by omega
          simp [read, this]
        · simp [read, hk, ih (wf_tail h)]

/-- Canonical memories that read alike are equal. -/
theorem ext {m n : Memory} (hm : wf m) (hn : wf n) (h : ∀ a, read m a = read n a) : m = n := by
  induction m generalizing n with
  | nil =>
    cases n with
    | nil => rfl
    | cons d n =>
      have := h d.1
      have hd : d.2 ≠ unlisted := hn.2 d (by simp)
      exact absurd (by simpa [read] using this.symm) hd
  | cons c m ih =>
    have hc : c.2 ≠ unlisted := hm.2 c (by simp)
    cases n with
    | nil =>
      have := h c.1
      exact absurd (by simpa [read] using this) hc
    | cons d n =>
      have hd : d.2 ≠ unlisted := hn.2 d (by simp)
      have below_m : ∀ x, x < c.1 → read (c :: m) x = unlisted := fun x hx =>
        read_below fun e he => by
          rcases List.mem_cons.1 he with rfl | he
          · exact hx
          · exact lt_trans hx (head_lt hm he)
      have below_n : ∀ x, x < d.1 → read (d :: n) x = unlisted := fun x hx =>
        read_below fun e he => by
          rcases List.mem_cons.1 he with rfl | he
          · exact hx
          · exact lt_trans hx (head_lt hn he)
      have key : c.1 = d.1 := by
        rcases lt_trichotomy c.1 d.1 with hlt | heq | hgt
        · exact absurd ((by simp [read] : read (c :: m) c.1 = c.2) ▸ (h c.1).trans (below_n _ hlt)) hc
        · exact heq
        · exact absurd ((by simp [read] : read (d :: n) d.1 = d.2) ▸ (h d.1).symm.trans (below_m _ hgt)) hd
      have val : c.2 = d.2 := by
        have := h c.1
        simpa [read, key] using this
      have hcd : c = d := Prod.ext key val
      subst hcd
      have : m = n := by
        apply ih (wf_tail hm) (wf_tail hn)
        intro a
        by_cases ha : c.1 = a
        · subst ha
          rw [read_below fun e he => head_lt hm he, read_below fun e he => head_lt hn he]
        · have := h a
          simpa [read, ha] using this
      rw [this]

/-! ### Loads and stores of several bytes -/

theorem loadNat_lt (m : Memory) (a n : Nat) : loadNat m a n < 256 ^ n := by
  induction n generalizing a with
  | zero => simp [loadNat]
  | succ n ih =>
    have h1 := ih (a + 1)
    have h2 := (read m a).isLt
    simp only [loadNat, Nat.pow_succ]
    omega

theorem wf_store {m : Memory} (h : wf m) (a : Nat) (v : Word) (n : Nat) : wf (store m a v n) := by
  induction n generalizing m a v with
  | zero => exact h
  | succ n ih => exact ih (wf_write h _ _) _ _

/-- A byte after a store: byte `k` of the value inside the stored bytes, as before outside. -/
theorem read_store {m : Memory} (h : wf m) (a : Nat) (v : Word) (n b : Nat) :
    read (store m a v n) b =
      if a ≤ b ∧ b < a + n then (v >>> (8 * (b - a))).extractLsb' 0 8 else read m b := by
  induction n generalizing m a v with
  | zero =>
    simp [store]
  | succ n ih =>
    simp only [store]
    rw [ih (wf_write h _ _), read_write h]
    by_cases hb : b = a
    · subst hb
      have h1 : ¬(b + 1 ≤ b ∧ b < b + 1 + n) := by omega
      have h2 : b ≤ b ∧ b < b + (n + 1) := by omega
      simp only [h1, h2, if_false, if_true]
      simp
    · by_cases hin : a + 1 ≤ b ∧ b < a + 1 + n
      · have h2 : a ≤ b ∧ b < a + (n + 1) := by omega
        have h3 : 8 * (b - a) = 8 + 8 * (b - (a + 1)) := by omega
        rw [if_pos hin, if_pos h2, h3, BitVec.shiftRight_add]
      · have h2 : ¬(a ≤ b ∧ b < a + (n + 1)) := by omega
        rw [if_neg hin, if_neg h2, if_neg hb]

/-- The cells of a store lie in the stored bytes or stood there before. -/
theorem mem_store {m : Memory} {a : Nat} {v : Word} {n : Nat} {c : Host.Cell} (h : c ∈ store m a v n) :
    (a ≤ c.1 ∧ c.1 < a + n) ∨ c ∈ m := by
  induction n generalizing m a v with
  | zero => exact .inr h
  | succ n ih =>
    rcases ih h with h | h
    · exact .inl (by omega)
    · rcases mem_write h with ⟨rfl, -⟩ | h
      · exact .inl (by simp only; omega)
      · exact .inr h

end Sys2Proof.Machine.Memory
end

