-- ==== Sys2Proof/Laws/Router.lean ====
section
/-! SUPPORT. The router: when an access succeeds, what it answers, what a bus write can do. -/

namespace Sys2Proof.Machine

/-- A region that contains an address lies around it. -/
theorem contains_iff (r : Region) (a : Word) :
    r.contains a = true ↔ r.base.toNat ≤ a.toNat ∧ a.toNat < r.base.toNat + r.size := by
  simp [Region.contains]

theorem holds_iff (r : Region) (a : Word) (n : Nat) :
    r.holds a n = true ↔ r.base.toNat ≤ a.toNat ∧ a.toNat - r.base.toNat + n ≤ r.size := by
  simp [Region.holds]

/-- For a region that contains the address, all bytes lie inside when the last one does. -/
theorem holds_of_contains {r : Region} {a : Word} {n : Nat} (h : r.contains a = true) :
    r.holds a n = true ↔ a.toNat + n ≤ r.base.toNat + r.size := by
  rw [holds_iff]
  rw [contains_iff] at h
  omega

/-- The resolved region is in the table and contains the address. -/
theorem regionAt_some {rs : List Region} {a : Word} {r : Region} (h : regionAt rs a = some r) :
    r ∈ rs ∧ r.contains a = true :=
  ⟨List.mem_of_find?_eq_some h, by simpa using List.find?_some h⟩

/-- No region is resolved exactly when none contains the address. -/
theorem regionAt_none {rs : List Region} {a : Word} :
    regionAt rs a = none ↔ ∀ r ∈ rs, r.contains a = false := by
  simp [regionAt, List.find?_eq_none]

theorem width_pos (w : Width) : 1 ≤ w.bytes := by cases w <;> decide

theorem width_le (w : Width) : w.bytes ≤ 4 := by cases w <;> decide

/-- A read reads nothing but the configuration and the bytes. -/
theorem memRead_congr {s t : State} (hc : t.cfg = s.cfg) (hm : t.mem = s.mem) (a : Word) (w : Width) :
    memRead t a w = memRead s a w := by
  simp [memRead, hc, hm]

/-- The one fault a read can answer is an AddressFault at the start address (R33, R34). -/
theorem memRead_error {s : State} {a : Word} {w : Width} {f : Fault} (h : memRead s a w = .error f) :
    f = .addressFault a := by
  unfold memRead at h
  split at h
  · simpa using h.symm
  · split at h
    · cases h
    · simpa using h.symm

/-- A read that succeeds: its region, and the little-endian value (R36). -/
theorem memRead_ok {s : State} {a : Word} {w : Width} {v : Word} (h : memRead s a w = .ok v) :
    ∃ r, regionAt s.cfg.regions a = some r ∧ r.holds a w.bytes = true ∧
      v = BitVec.ofNat 32 (Memory.loadNat s.mem a.toNat w.bytes) := by
  unfold memRead at h
  split at h
  · cases h
  · split at h
    · exact ⟨_, ‹_›, ‹_›, by simpa using h.symm⟩
    · cases h

/-- A read of one byte where a region is resolved. -/
theorem memRead_byte {s : State} {a : Word} {r : Region} (h : regionAt s.cfg.regions a = some r) :
    memRead s a .byte = .ok ((Memory.read s.mem a.toNat).zeroExtend 32) := by
  have hc := (regionAt_some h).2
  have hh : r.holds a Width.byte.bytes = true := by
    rw [holds_of_contains hc]
    rw [contains_iff] at hc
    simp only [Width.bytes]
    omega
  simp only [memRead, h, hh, if_true]
  congr 1
  apply BitVec.eq_of_toNat_eq
  simp [Width.bytes, Memory.loadNat]

/-- A bus write that succeeds: its region is read-write, and only the bytes changed (R37). -/
theorem memWrite_next {s t : State} {a : Word} {w : Width} {v : Word} (h : memWrite s a w v = .next t) :
    ∃ r, regionAt s.cfg.regions a = some r ∧ r.policy = .rw ∧ r.holds a w.bytes = true ∧
      t = { s with mem := Memory.store s.mem a.toNat v w.bytes } := by
  unfold memWrite at h
  split at h
  · cases h
  · rename_i r hr
    split at h
    · cases h
    · rename_i hp
      split at h
      · refine ⟨r, hr, ?_, ‹_›, by simpa using h.symm⟩
        cases hq : r.policy
        · exact absurd hq hp
        · rfl
      · cases h

/-- A successful access stays below the top of the address space when its region does. -/
theorem access_below_top {r : Region} {a : Word} {n : Nat} (hr : r.base.toNat + r.size ≤ 2 ^ 32)
    (h : r.holds a n = true) : a.toNat + n ≤ 2 ^ 32 := by
  rw [holds_iff] at h
  omega

end Sys2Proof.Machine
end

