-- ==== Sys2Proof/Laws/Boot.lean ====
section
/-! SUPPORT. Power-up: what the configuration check says, and the bytes it leaves. -/

namespace Sys2Proof.Machine

/-- The reset state is the power-up of the example configuration (R44, R226). -/
theorem reset_eq_boot : State.reset = State.boot Config.example1 := by decide

/-- Power-up answers the boot state exactly for a sound configuration. -/
theorem powerUp_next {c : Config} {t : State} (h : powerUp c = .next t) : c.wf = true ∧ t = State.boot c := by
  unfold powerUp at h
  split at h
  · exact ⟨‹_›, by simpa using h.symm⟩
  · cases h

/-- The parts of the configuration check. -/
theorem config_wf_iff (c : Config) :
    c.wf = true ↔ (∀ r ∈ c.regions, r.wf = true) ∧ disjointRegions c.regions = true ∧
      c.execIndex < c.regions.length := by
  simp [Config.wf, and_assoc]

/-- The region check gives the bounds of R31. -/
theorem region_bounds {r : Region} (h : r.wf = true) : 1 ≤ r.size ∧ r.base.toNat + r.size ≤ 2 ^ 32 := by
  simp only [Region.wf, Bool.and_eq_true, decide_eq_true_eq] at h
  exact h.1

/-- A sound region's image has the region's size, and only a read-only region has one (R6, D15). -/
theorem region_image {r : Region} {bytes : List Byte} (h : r.wf = true) (hi : r.image = some bytes) :
    r.policy = .ro ∧ bytes.length = r.size := by
  simp only [Region.wf, Bool.and_eq_true, hi] at h
  have h2 := h.2
  cases hp : r.policy <;> simp_all

/-- Non-overlap is pairwise. -/
theorem disjointRegions_pairwise {rs : List Region} (h : disjointRegions rs = true) :
    rs.Pairwise (fun r q => r.disjoint q = true) := by
  induction rs with
  | nil => exact .nil
  | cons r rs ih =>
    simp only [disjointRegions, Bool.and_eq_true, List.all_eq_true] at h
    exact List.pairwise_cons.2 ⟨h.1, ih h.2⟩

/-- Two regions that do not overlap contain no common address. -/
theorem disjoint_not_both {r q : Region} {a : Word} (h : r.disjoint q = true) (hr : r.contains a = true) :
    q.contains a = false := by
  rw [contains_iff] at hr
  simp only [Region.disjoint, Bool.or_eq_true, decide_eq_true_eq] at h
  rw [Bool.eq_false_iff, ne_eq, contains_iff]
  omega

/-- In a sound table a region that contains the address is the one it resolves to (R32). -/
theorem regionAt_of_contains {rs : List Region} {r : Region} {a : Word} (hd : disjointRegions rs = true)
    (hm : r ∈ rs) (hc : r.contains a = true) : regionAt rs a = some r := by
  induction rs with
  | nil => cases hm
  | cons q rs ih =>
    simp only [disjointRegions, Bool.and_eq_true, List.all_eq_true] at hd
    rcases List.mem_cons.1 hm with rfl | hm'
    · simp [regionAt, hc]
    · have hq : q.contains a = false := by
        by_contra hne
        rw [Bool.not_eq_false] at hne
        rw [disjoint_not_both (hd.1 r hm') hne] at hc
        cases hc
      have := ih hd.2 hm'
      simp only [regionAt] at this ⊢
      rw [List.find?_cons_of_neg (by simp [hq])]
      exact this

theorem Memory.wf_storeBytes {m : Memory} (h : Memory.wf m) (a : Nat) (bs : List Byte) :
    Memory.wf (Memory.storeBytes m a bs) := by
  induction bs generalizing m a with
  | nil => exact h
  | cons b bs ih => exact ih (Memory.wf_write h _ _) _

/-- A byte after storing consecutive bytes. -/
theorem Memory.read_storeBytes {m : Memory} (h : Memory.wf m) (a : Nat) (bs : List Byte) (b : Nat) :
    Memory.read (Memory.storeBytes m a bs) b =
      if a ≤ b ∧ b < a + bs.length then bs.getD (b - a) Memory.unlisted else Memory.read m b := by
  induction bs generalizing m a with
  | nil => simp [Memory.storeBytes]
  | cons v bs ih =>
    simp only [Memory.storeBytes]
    rw [ih (Memory.wf_write h _ _), Memory.read_write h]
    by_cases hb : b = a
    · subst hb
      simp
    · by_cases hin : a + 1 ≤ b ∧ b < a + 1 + bs.length
      · have h2 : a ≤ b ∧ b < a + (v :: bs).length := by simp only [List.length_cons]; omega
        have h3 : b - a = (b - (a + 1)) + 1 := by omega
        rw [if_pos hin, if_pos h2, h3, List.getD_cons_succ]
      · have h2 : ¬(a ≤ b ∧ b < a + (v :: bs).length) := by simp only [List.length_cons]; omega
        rw [if_neg hin, if_neg h2, if_neg hb]

theorem Memory.mem_storeBytes {m : Memory} {a : Nat} {bs : List Byte} {c : Host.Cell}
    (h : c ∈ Memory.storeBytes m a bs) : (a ≤ c.1 ∧ c.1 < a + bs.length) ∨ c ∈ m := by
  induction bs generalizing m a with
  | nil => exact .inr h
  | cons b bs ih =>
    simp only [Memory.storeBytes] at h
    rcases ih h with h | h
    · exact .inl (by simp only [List.length_cons]; omega)
    · rcases Memory.mem_write h with ⟨rfl, -⟩ | h
      · exact .inl (by simp)
      · exact .inr h

theorem wf_romStorage (rs : List Region) : Memory.wf (romStorage rs) := by
  induction rs with
  | nil => exact Memory.wf_nil
  | cons r rs ih =>
    simp only [romStorage]
    split
    · exact Memory.wf_storeBytes ih _ _
    · exact ih

end Sys2Proof.Machine
end

