-- ==== Sys2Proof/Laws/Decode.lean ====
section
/-! SUPPORT. Everything the decoder can answer, said once, and the bits of the immediates. -/

namespace Sys2Proof

/-- The decoder's instruction is the dispatch's. -/
theorem decode_ok {bits : Word} {i : Instr} (h : decode bits = .ok i) : decode? bits = some i := by
  unfold decode at h
  split at h
  · cases h; assumption
  · cases h

/-- A word without an instruction is refused with the word (R75). -/
theorem decode_error {bits : Word} {e : DecodeError} (h : decode bits = .error e) : e = .unsupported bits := by
  unfold decode at h
  split at h
  · cases h
  · simpa using h.symm

/-- Where a decoded instruction comes from: one of the six major opcodes (R68, R80). -/
theorem decode_cases {bits : Word} {i : Instr} (h : decode bits = .ok i) :
    (opcodeOf bits = 0b0110111#7 ∧ i = .lui (rdOf bits) (immUOf bits)) ∨
    (opcodeOf bits = 0b0010111#7 ∧ i = .auipc (rdOf bits) (immUOf bits)) ∨
    (opcodeOf bits = 0b0010011#7 ∧ decodeOpImm bits = some i) ∨
    (opcodeOf bits = 0b0110011#7 ∧ decodeOp bits = some i) ∨
    (opcodeOf bits = 0b1100111#7 ∧ funct3Of bits = 0#3 ∧
      i = .jalr (rdOf bits) (rs1Of bits) (immIOf bits)) ∨
    (opcodeOf bits = 0b0001111#7 ∧ funct3Of bits = 0#3 ∧ i = .fence) := by
  have := decode_ok h
  unfold decode? at this
  split at this
  · simp_all
  · simp_all
  · simp_all
  · simp_all
  · unfold decodeJalr at this; split at this <;> simp_all
  · unfold decodeFence at this; split at this <;> simp_all
  · cases this

/-- The bits of the I-type immediate (R64). -/
theorem getLsbD_immIOf (bits : Word) (k : Nat) (hk : k < 32) :
    (immIOf bits).getLsbD k = if k < 12 then bits.getLsbD (20 + k) else bits.getLsbD 31 := by
  rw [immIOf, BitVec.getLsbD_signExtend, BitVec.msb_eq_getLsbD_last]
  simp only [BitVec.getLsbD_extractLsb', hk, decide_true, Bool.true_and]
  split <;> simp_all

/-- The U-type immediate is the word without its low 12 bits (R65). -/
theorem immUOf_eq (bits : Word) : immUOf bits = bits &&& 0xFFFFF000#32 := by
  apply BitVec.eq_of_getLsbD_eq
  intro k hk
  unfold immUOf
  change BitVec.getLsbD (w := 20 + 12) (bits.extractLsb' 12 20 ++ 0#12) k = _
  rw [BitVec.getLsbD_append, BitVec.getLsbD_and]
  interval_cases k <;> simp

end Sys2Proof
end

