-- ==== Sys2Proof/Laws/Fields.lean ====
section
/-! SUPPORT. The fields of an encoded word, bit by bit, and what the decoder's field extractors read from it. -/

namespace Sys2Proof

variable (f7 : BitVec 7) (r2 r1 rd : RegIdx) (f3 : BitVec 3) (op : BitVec 7) (imm : Word)

/-- The bits of a format R word (R63). -/
theorem getLsbD_encodeR (i : Nat) :
    (encodeR f7 r2 r1 f3 rd op).getLsbD i =
      if i < 7 then op.getLsbD i else if i < 12 then rd.getLsbD (i - 7)
      else if i < 15 then f3.getLsbD (i - 12) else if i < 20 then r1.getLsbD (i - 15)
      else if i < 25 then r2.getLsbD (i - 20) else f7.getLsbD (i - 25) := by
  change BitVec.getLsbD (w := 7 + 5 + 5 + 3 + 5 + 7) (f7 ++ r2 ++ r1 ++ f3 ++ rd ++ op) i = _
  simp only [BitVec.getLsbD_append, Nat.sub_sub]
  grind

/-- The bits of a format I word (R63). -/
theorem getLsbD_encodeI (i : Nat) :
    (encodeI imm r1 f3 rd op).getLsbD i =
      if i < 7 then op.getLsbD i else if i < 12 then rd.getLsbD (i - 7)
      else if i < 15 then f3.getLsbD (i - 12) else if i < 20 then r1.getLsbD (i - 15)
      else (imm.extractLsb' 0 12).getLsbD (i - 20) := by
  change BitVec.getLsbD (w := 12 + 5 + 3 + 5 + 7) (imm.extractLsb' 0 12 ++ r1 ++ f3 ++ rd ++ op) i = _
  simp only [BitVec.getLsbD_append, Nat.sub_sub]
  grind

/-- The bits of a format U word (R63). -/
theorem getLsbD_encodeU (i : Nat) :
    (encodeU imm rd op).getLsbD i =
      if i < 7 then op.getLsbD i else if i < 12 then rd.getLsbD (i - 7)
      else (imm.extractLsb' 12 20).getLsbD (i - 12) := by
  change BitVec.getLsbD (w := 20 + 5 + 7) (imm.extractLsb' 12 20 ++ rd ++ op) i = _
  simp only [BitVec.getLsbD_append, Nat.sub_sub]
  grind

/-- A field of a word is read where the word's bits are those of the field. -/
theorem extract_eq {w : Word} {start len : Nat} {v : BitVec len}
    (h : ∀ k, k < len → w.getLsbD (start + k) = v.getLsbD k) : w.extractLsb' start len = v := by
  apply BitVec.eq_of_getLsbD_eq
  intro k hk
  simp only [BitVec.getLsbD_extractLsb', hk, decide_true, Bool.true_and, h k hk]

@[simp] theorem opcodeOf_encodeR : opcodeOf (encodeR f7 r2 r1 f3 rd op) = op :=
  extract_eq fun k hk => by rw [getLsbD_encodeR]; grind
@[simp] theorem rdOf_encodeR : rdOf (encodeR f7 r2 r1 f3 rd op) = rd :=
  extract_eq fun k hk => by rw [getLsbD_encodeR]; grind
@[simp] theorem funct3Of_encodeR : funct3Of (encodeR f7 r2 r1 f3 rd op) = f3 :=
  extract_eq fun k hk => by rw [getLsbD_encodeR]; grind
@[simp] theorem rs1Of_encodeR : rs1Of (encodeR f7 r2 r1 f3 rd op) = r1 :=
  extract_eq fun k hk => by rw [getLsbD_encodeR]; grind
@[simp] theorem rs2Of_encodeR : rs2Of (encodeR f7 r2 r1 f3 rd op) = r2 :=
  extract_eq fun k hk => by rw [getLsbD_encodeR]; grind
@[simp] theorem shamtOf_encodeR : shamtOf (encodeR f7 r2 r1 f3 rd op) = r2 :=
  extract_eq fun k hk => by rw [getLsbD_encodeR]; grind
@[simp] theorem funct7Of_encodeR : funct7Of (encodeR f7 r2 r1 f3 rd op) = f7 :=
  extract_eq fun k hk => by rw [getLsbD_encodeR]; grind

@[simp] theorem opcodeOf_encodeI : opcodeOf (encodeI imm r1 f3 rd op) = op :=
  extract_eq fun k hk => by rw [getLsbD_encodeI]; grind
@[simp] theorem rdOf_encodeI : rdOf (encodeI imm r1 f3 rd op) = rd :=
  extract_eq fun k hk => by rw [getLsbD_encodeI]; grind
@[simp] theorem funct3Of_encodeI : funct3Of (encodeI imm r1 f3 rd op) = f3 :=
  extract_eq fun k hk => by rw [getLsbD_encodeI]; grind
@[simp] theorem rs1Of_encodeI : rs1Of (encodeI imm r1 f3 rd op) = r1 :=
  extract_eq fun k hk => by rw [getLsbD_encodeI]; grind
@[simp] theorem immIOf_encodeI : immIOf (encodeI imm r1 f3 rd op) = (imm.extractLsb' 0 12).signExtend 32 := by
  unfold immIOf
  congr 1
  exact extract_eq fun k hk => by rw [getLsbD_encodeI]; grind

@[simp] theorem opcodeOf_encodeU : opcodeOf (encodeU imm rd op) = op :=
  extract_eq fun k hk => by rw [getLsbD_encodeU]; grind
@[simp] theorem rdOf_encodeU : rdOf (encodeU imm rd op) = rd :=
  extract_eq fun k hk => by rw [getLsbD_encodeU]; grind
@[simp] theorem immUOf_encodeU : immUOf (encodeU imm rd op) = imm.extractLsb' 12 20 ++ 0#12 := by
  unfold immUOf
  congr 1
  exact extract_eq fun k hk => by rw [getLsbD_encodeU]; grind

/-! ### The masks of the opcode map -/

/-- The mask of R71 and R72 keeps funct7, funct3 and the opcode. -/
theorem and_maskR (bits : Word) :
    bits &&& 0xFE00707F#32 = encodeR (funct7Of bits) 0#5 0#5 (funct3Of bits) 0#5 (opcodeOf bits) := by
  apply BitVec.eq_of_getLsbD_eq
  intro i hi
  rw [getLsbD_encodeR, BitVec.getLsbD_and]
  interval_cases i <;> simp [funct7Of, funct3Of, opcodeOf]

/-- The mask of R70, R73 and R74 keeps funct3 and the opcode. -/
theorem and_maskI (bits : Word) :
    bits &&& 0x0000707F#32 = encodeR 0#7 0#5 0#5 (funct3Of bits) 0#5 (opcodeOf bits) := by
  apply BitVec.eq_of_getLsbD_eq
  intro i hi
  rw [getLsbD_encodeR, BitVec.getLsbD_and]
  interval_cases i <;> simp [funct3Of, opcodeOf]

/-- The mask of R69 keeps the opcode. -/
theorem and_maskU (bits : Word) :
    bits &&& 0x0000007F#32 = encodeR 0#7 0#5 0#5 0#3 0#5 (opcodeOf bits) := by
  apply BitVec.eq_of_getLsbD_eq
  intro i hi
  rw [getLsbD_encodeR, BitVec.getLsbD_and]
  interval_cases i <;> simp [opcodeOf]

end Sys2Proof
end

