-- ==== Sys2Proof/Laws/PerInstr.lean ====
section
/-! SUPPORT. Statements made per instruction: one lemma per constructor of Instr. -/

namespace Sys2Proof.Laws.EncodedInRow

/-- The instruction's word belongs to a row of the opcode map that bears its mnemonic (R69 to R74, R81): whatever its
operands, the key bits stand where the map has them. -/
def Statement (i : Instr) : Prop :=
  ∃ row ∈ opcodeTable, row.mnemonic = i.mnemonic ∧ row.covers (encode i) = true

theorem lui (rd : RegIdx) (imm : Word) : Statement (.lui rd imm) :=
  ⟨⟨"LUI", 0x0000007F#32, 0x00000037#32⟩, by decide, rfl, by
    simp only [Row.covers, encode, and_maskU]; simp; decide⟩

theorem auipc (rd : RegIdx) (imm : Word) : Statement (.auipc rd imm) :=
  ⟨⟨"AUIPC", 0x0000007F#32, 0x00000017#32⟩, by decide, rfl, by
    simp only [Row.covers, encode, and_maskU]; simp; decide⟩

theorem addi (rd rs1 : RegIdx) (imm : Word) : Statement (.addi rd rs1 imm) :=
  ⟨⟨"ADDI", 0x0000707F#32, 0x00000013#32⟩, by decide, rfl, by
    simp only [Row.covers, encode, and_maskI]; simp; decide⟩

theorem slti (rd rs1 : RegIdx) (imm : Word) : Statement (.slti rd rs1 imm) :=
  ⟨⟨"SLTI", 0x0000707F#32, 0x00002013#32⟩, by decide, rfl, by
    simp only [Row.covers, encode, and_maskI]; simp; decide⟩

theorem sltiu (rd rs1 : RegIdx) (imm : Word) : Statement (.sltiu rd rs1 imm) :=
  ⟨⟨"SLTIU", 0x0000707F#32, 0x00003013#32⟩, by decide, rfl, by
    simp only [Row.covers, encode, and_maskI]; simp; decide⟩

theorem xori (rd rs1 : RegIdx) (imm : Word) : Statement (.xori rd rs1 imm) :=
  ⟨⟨"XORI", 0x0000707F#32, 0x00004013#32⟩, by decide, rfl, by
    simp only [Row.covers, encode, and_maskI]; simp; decide⟩

theorem ori (rd rs1 : RegIdx) (imm : Word) : Statement (.ori rd rs1 imm) :=
  ⟨⟨"ORI", 0x0000707F#32, 0x00006013#32⟩, by decide, rfl, by
    simp only [Row.covers, encode, and_maskI]; simp; decide⟩

theorem andi (rd rs1 : RegIdx) (imm : Word) : Statement (.andi rd rs1 imm) :=
  ⟨⟨"ANDI", 0x0000707F#32, 0x00007013#32⟩, by decide, rfl, by
    simp only [Row.covers, encode, and_maskI]; simp; decide⟩

theorem slli (rd rs1 : RegIdx) (shamt : Shamt) : Statement (.slli rd rs1 shamt) :=
  ⟨⟨"SLLI", 0xFE00707F#32, 0x00001013#32⟩, by decide, rfl, by
    simp only [Row.covers, encode, and_maskR]; simp; decide⟩

theorem srli (rd rs1 : RegIdx) (shamt : Shamt) : Statement (.srli rd rs1 shamt) :=
  ⟨⟨"SRLI", 0xFE00707F#32, 0x00005013#32⟩, by decide, rfl, by
    simp only [Row.covers, encode, and_maskR]; simp; decide⟩

theorem srai (rd rs1 : RegIdx) (shamt : Shamt) : Statement (.srai rd rs1 shamt) :=
  ⟨⟨"SRAI", 0xFE00707F#32, 0x40005013#32⟩, by decide, rfl, by
    simp only [Row.covers, encode, and_maskR]; simp; decide⟩

theorem add (rd rs1 rs2 : RegIdx) : Statement (.add rd rs1 rs2) :=
  ⟨⟨"ADD", 0xFE00707F#32, 0x00000033#32⟩, by decide, rfl, by
    simp only [Row.covers, encode, and_maskR]; simp; decide⟩

theorem sub (rd rs1 rs2 : RegIdx) : Statement (.sub rd rs1 rs2) :=
  ⟨⟨"SUB", 0xFE00707F#32, 0x40000033#32⟩, by decide, rfl, by
    simp only [Row.covers, encode, and_maskR]; simp; decide⟩

theorem sll (rd rs1 rs2 : RegIdx) : Statement (.sll rd rs1 rs2) :=
  ⟨⟨"SLL", 0xFE00707F#32, 0x00001033#32⟩, by decide, rfl, by
    simp only [Row.covers, encode, and_maskR]; simp; decide⟩

theorem slt (rd rs1 rs2 : RegIdx) : Statement (.slt rd rs1 rs2) :=
  ⟨⟨"SLT", 0xFE00707F#32, 0x00002033#32⟩, by decide, rfl, by
    simp only [Row.covers, encode, and_maskR]; simp; decide⟩

theorem sltu (rd rs1 rs2 : RegIdx) : Statement (.sltu rd rs1 rs2) :=
  ⟨⟨"SLTU", 0xFE00707F#32, 0x00003033#32⟩, by decide, rfl, by
    simp only [Row.covers, encode, and_maskR]; simp; decide⟩

theorem xor (rd rs1 rs2 : RegIdx) : Statement (.xor rd rs1 rs2) :=
  ⟨⟨"XOR", 0xFE00707F#32, 0x00004033#32⟩, by decide, rfl, by
    simp only [Row.covers, encode, and_maskR]; simp; decide⟩

theorem srl (rd rs1 rs2 : RegIdx) : Statement (.srl rd rs1 rs2) :=
  ⟨⟨"SRL", 0xFE00707F#32, 0x00005033#32⟩, by decide, rfl, by
    simp only [Row.covers, encode, and_maskR]; simp; decide⟩

theorem sra (rd rs1 rs2 : RegIdx) : Statement (.sra rd rs1 rs2) :=
  ⟨⟨"SRA", 0xFE00707F#32, 0x40005033#32⟩, by decide, rfl, by
    simp only [Row.covers, encode, and_maskR]; simp; decide⟩

theorem or (rd rs1 rs2 : RegIdx) : Statement (.or rd rs1 rs2) :=
  ⟨⟨"OR", 0xFE00707F#32, 0x00006033#32⟩, by decide, rfl, by
    simp only [Row.covers, encode, and_maskR]; simp; decide⟩

theorem and (rd rs1 rs2 : RegIdx) : Statement (.and rd rs1 rs2) :=
  ⟨⟨"AND", 0xFE00707F#32, 0x00007033#32⟩, by decide, rfl, by
    simp only [Row.covers, encode, and_maskR]; simp; decide⟩

theorem jalr (rd rs1 : RegIdx) (imm : Word) : Statement (.jalr rd rs1 imm) :=
  ⟨⟨"JALR", 0x0000707F#32, 0x00000067#32⟩, by decide, rfl, by
    simp only [Row.covers, encode, and_maskI]; simp; decide⟩

theorem fence : Statement (.fence) :=
  ⟨⟨"FENCE", 0x0000707F#32, 0x0000000F#32⟩, by decide, rfl, by decide⟩

end Sys2Proof.Laws.EncodedInRow
end

