-- ==== Sys2Proof/Laws/State.lean ====
section
/-! SUPPORT. One lemma per field per update of the state, and the register file's reads after writes. -/

namespace Sys2Proof.Machine

variable (s : State) (i j rd : RegIdx) (v : Word) (t : Option Word) (f : Fault)

/-! ### writeReg -/

@[simp] theorem writeReg_cfg : (s.writeReg i v).cfg = s.cfg := by unfold State.writeReg; split <;> rfl
@[simp] theorem writeReg_pc : (s.writeReg i v).pc = s.pc := by unfold State.writeReg; split <;> rfl
@[simp] theorem writeReg_mem : (s.writeReg i v).mem = s.mem := by unfold State.writeReg; split <;> rfl
@[simp] theorem writeReg_latch : (s.writeReg i v).latch = s.latch := by unfold State.writeReg; split <;> rfl

/-- A write to index 0 is discarded (R12). -/
@[simp] theorem writeReg_zero : s.writeReg 0#5 v = s := by simp [State.writeReg]

/-! ### commit -/

@[simp] theorem commit_cfg : (s.commit t).cfg = s.cfg := rfl
@[simp] theorem commit_regs : (s.commit t).regs = s.regs := rfl
@[simp] theorem commit_pc : (s.commit t).pc = nextPc s.pc t := rfl
@[simp] theorem commit_mem : (s.commit t).mem = s.mem := rfl
@[simp] theorem commit_latch : (s.commit t).latch = s.latch := rfl
@[simp] theorem nextPc_none (pc : Word) : nextPc pc none = pcPlus4 pc := rfl
@[simp] theorem nextPc_some (pc u : Word) : nextPc pc (some u) = u := rfl

/-! ### retire -/

@[simp] theorem retire_cfg : (s.retire rd v t).cfg = s.cfg := by simp [State.retire]
@[simp] theorem retire_pc : (s.retire rd v t).pc = nextPc s.pc t := by simp [State.retire]
@[simp] theorem retire_mem : (s.retire rd v t).mem = s.mem := by simp [State.retire]
@[simp] theorem retire_latch : (s.retire rd v t).latch = s.latch := by simp [State.retire]

/-! ### takeFault -/

@[simp] theorem takeFault_cfg : (s.takeFault f).cfg = s.cfg := by unfold State.takeFault; split <;> rfl
@[simp] theorem takeFault_regs : (s.takeFault f).regs = s.regs := by unfold State.takeFault; split <;> rfl
@[simp] theorem takeFault_pc : (s.takeFault f).pc = s.pc := by unfold State.takeFault; split <;> rfl
@[simp] theorem takeFault_mem : (s.takeFault f).mem = s.mem := by unfold State.takeFault; split <;> rfl

/-- A running machine that takes a fault is halted with the fault's record (R195). -/
theorem takeFault_running (h : s.latch = none) : s.takeFault f = { s with latch := some (f.record s.pc) } := by
  simp [State.takeFault, h]

/-- A halted machine keeps its first fault (R195). -/
theorem takeFault_halted (r : FaultRec) (h : s.latch = some r) : s.takeFault f = s := by
  simp [State.takeFault, h]

/-- After taking a fault the machine is halted. -/
theorem takeFault_latch_isSome : (s.takeFault f).latch.isSome = true := by
  cases h : s.latch <;> simp [State.takeFault, h]

/-! ### The register file -/

/-- An index that is not 0 is at least 1 as a number. -/
theorem index_pos (h : i ≠ 0#5) : 0 < i.toNat :=
  Nat.pos_of_ne_zero fun e => h (BitVec.eq_of_toNat_eq e)

/-- x0 reads 0 (R11). -/
@[simp] theorem readReg_zero : s.readReg 0#5 = 0#32 := by simp [State.readReg]

/-- A read depends on nothing but the registers. -/
theorem readReg_congr {s u : State} (h : s.regs = u.regs) : s.readReg i = u.readReg i := by
  simp [State.readReg, h]

@[simp] theorem readReg_commit : (s.commit t).readReg i = s.readReg i := rfl
@[simp] theorem readReg_takeFault : (s.takeFault f).readReg i = s.readReg i := readReg_congr i (by simp)

/-- Reading the register just written (R11, R12). -/
theorem readReg_writeReg_same (h : i ≠ 0#5) : (s.writeReg i v).readReg i = v := by
  simp [State.readReg, State.writeReg, h]

/-- Reading another register than the one just written (R11, R12). -/
theorem readReg_writeReg_other (h : j ≠ i) : (s.writeReg i v).readReg j = s.readReg j := by
  by_cases hi : i = 0#5
  · subst hi; simp
  by_cases hj : j = 0#5
  · subst hj; simp
  have hne : i.toNat - 1 ≠ j.toNat - 1 := by
    have := index_pos i hi
    have := index_pos j hj
    have : j.toNat ≠ i.toNat := fun e => h (BitVec.eq_of_toNat_eq e)
    omega
  simp [State.readReg, State.writeReg, hi, hj, Vector.getElem_set_ne, hne]

/-- A read after a write, in one equation (R11, R12). -/
theorem readReg_writeReg :
    (s.writeReg i v).readReg j = if j = 0#5 then 0#32 else if j = i then v else s.readReg j := by
  by_cases hj : j = 0#5
  · subst hj; simp
  by_cases h : j = i
  · subst h; simp [hj, readReg_writeReg_same]
  · simp [hj, h, readReg_writeReg_other]

/-- A read after an instruction that wrote `rd`. -/
theorem readReg_retire :
    (s.retire rd v t).readReg j = if j = 0#5 then 0#32 else if j = rd then v else s.readReg j := by
  simp [State.retire, readReg_writeReg]

/-- Two states with the same registers read alike, and the other way round (x1 to x31 are all there is). -/
theorem regs_ext {s u : State} (h : ∀ i, s.readReg i = u.readReg i) : s.regs = u.regs := by
  apply Vector.ext
  intro k hk
  have := h (BitVec.ofNat 5 (k + 1))
  have hnz : BitVec.ofNat 5 (k + 1) ≠ 0#5 := by
    intro e
    have := congrArg BitVec.toNat e
    simp only [BitVec.toNat_ofNat] at this
    omega
  have hk' : (k + 1) % 32 - 1 = k := by omega
  simpa only [State.readReg, hnz, dif_neg, not_false_iff, BitVec.toNat_ofNat, Nat.reducePow, hk'] using this

end Sys2Proof.Machine
end

