-- ==== Sys2Proof/Laws/Step.lean ====
section
/-! SUPPORT. Everything an instruction and a step can do, said once. -/

namespace Sys2Proof.Machine

/-- An instruction answers a next state: it writes its destination register, if it has one, with some value, and commits
the default next pc or a target. Nothing else changes (R103). -/
theorem exec_cases (i : Instr) (s : State) :
    (∃ rd v t, i.rd? = some rd ∧ exec i s = .next (s.retire rd v t)) ∨
      (i = .fence ∧ exec i s = .next (s.commit none)) := by
  cases i <;> first
    | exact .inr ⟨rfl, rfl⟩
    | exact .inl ⟨_, _, _, rfl, rfl⟩

/-- An instruction always answers a next state, which has the memory, the latch and the configuration of the state it
ran in. -/
theorem exec_next (i : Instr) (s : State) :
    ∃ t, exec i s = .next t ∧ t.mem = s.mem ∧ t.latch = s.latch ∧ t.cfg = s.cfg := by
  rcases exec_cases i s with ⟨rd, v, t, -, h⟩ | ⟨-, h⟩
  · exact ⟨_, h, by simp, by simp, by simp⟩
  · exact ⟨_, h, rfl, rfl, rfl⟩

/-- Everything a step can do (R90): a halted machine stays; a fetch fault or a decode fault is taken; or the decoded
instruction runs. -/
theorem step_cases (s : State) :
    (s.halted = true ∧ step s = .next s) ∨
    (s.halted = false ∧ fetch s = .error (.addressFault s.pc) ∧
      step s = .next (s.takeFault (.addressFault s.pc))) ∨
    (∃ bits, s.halted = false ∧ fetch s = .ok bits ∧ decode bits = .error (.unsupported bits) ∧
      step s = .next (s.takeFault (.decodeFault bits))) ∨
    (∃ bits i, s.halted = false ∧ fetch s = .ok bits ∧ decode bits = .ok i ∧ step s = exec i s) := by
  cases hh : s.halted
  · right
    cases hf : fetch s with
    | error f =>
      left
      obtain rfl := memRead_error hf
      exact ⟨rfl, rfl, by simp [step, hh, hf]⟩
    | ok bits =>
      right
      cases hd : decode bits with
      | error e =>
        left
        have he : e = .unsupported bits := by
          unfold decode at hd
          split at hd
          · cases hd
          · simpa using hd.symm
        subst he
        exact ⟨bits, rfl, rfl, hd, by simp [step, hh, hf, hd]⟩
      | ok i => exact .inr ⟨bits, i, rfl, rfl, hd, by simp [step, hh, hf, hd]⟩
  · exact .inl ⟨rfl, by simp [step, hh]⟩

/-- A step always answers a next state, with the same bytes and configuration. -/
theorem step_next (s : State) : ∃ t, step s = .next t ∧ t.mem = s.mem ∧ t.cfg = s.cfg := by
  rcases step_cases s with ⟨-, h⟩ | ⟨-, -, h⟩ | ⟨_, -, -, -, h⟩ | ⟨_, i, -, -, -, h⟩
  · exact ⟨s, h, rfl, rfl⟩
  · exact ⟨_, h, by simp, by simp⟩
  · exact ⟨_, h, by simp, by simp⟩
  · obtain ⟨t, ht, hm, -, hc⟩ := exec_next i s
    exact ⟨t, h.trans ht, hm, hc⟩

/-- The fetched word depends on the bytes, the configuration and the pc alone. -/
theorem fetch_congr {s t : State} (hc : t.cfg = s.cfg) (hm : t.mem = s.mem) (hp : t.pc = s.pc) :
    fetch t = fetch s := by
  simp only [fetch, hp]
  exact memRead_congr hc hm _ _

end Sys2Proof.Machine
end

