-- ==== Sys2Proof/Laws/Run.lean ====
section
/-! SUPPORT. Runs: the first step, an invariant along a run, and that the host's run is this one. -/

namespace Sys2Proof.Machine

/-- A run's first step. -/
theorem run_step {s t : State} (h : step s = .next t) (k : Nat) : run (k + 1) s = run k t := by
  simp only [run, h]

/-- What holds at the start and what every step keeps holds at the end of every run. -/
theorem run_keeps {P : State → Prop} (keep : ∀ s t, P s → step s = .next t → P t) :
    ∀ k s t, P s → run k s = .next t → P t := by
  intro k
  induction k with
  | zero =>
    intro s t hs h
    cases h
    exact hs
  | succ k ih =>
    intro s t hs h
    obtain ⟨u, hu, -, -⟩ := step_next s
    rw [run_step hu] at h
    exact ih u t (keep s u hs hu) h

/-- The host's run of the machine (Host/Core.lean) is the same run. -/
theorem core_run_eq (k : Nat) (s : State) : Host.Core.run core k s = run k s := by
  induction k generalizing s with
  | zero => rfl
  | succ k ih =>
    obtain ⟨t, ht, -, -⟩ := step_next s
    have hs : core.step s = .next t := ht
    rw [run_step ht, ← ih t]
    simp only [Host.Core.run, hs]

end Sys2Proof.Machine
end

