-- ==== Sys2Proof/Tests/Slice0.lean ====
section
/-! SUPPORT. Tests. Every expected value is taken from spec/95_test_vectors.md (the id is in the theorem's comment) or
worked out by hand from the rule named; the witnesses at the end show that the statements' hypotheses can be met. -/

namespace Sys2Proof.Tests

open Sys2Proof Sys2Proof.Machine

/-! ### Helpers -/

/-- The next state of an outcome, if it is one. -/
def nextOf (o : Host.Outcome State Fault Refusal) : Option State :=
  match o with
  | .next s => some s
  | .fault _ => none
  | .refused _ => none

/-- The fault of an outcome, if it is one. -/
def faultOf (o : Host.Outcome State Fault Refusal) : Option Fault :=
  match o with
  | .next _ => none
  | .fault f => some f
  | .refused _ => none

/-- The reset state at another pc, with some registers written. -/
def start (pc : Word) (ws : List (RegIdx × Word)) : State := regWrites { State.reset with pc := pc } ws

/-- One step on the word `w` at the pc: what the register `r` reads afterwards, the pc and the latch. -/
def stepOn (s : State) (w : Nat) (r : RegIdx) : Option (Word × Word × Option FaultRec) :=
  (nextOf (step (s.withFetchWord 32 w))).map fun t => (t.readReg r, t.pc, t.latch)

/-- One step at 0x1000 with x6 and x7 set: what x5 reads afterwards, when the pc is 0x1004 and no fault is latched. -/
def x5After (w : Nat) (x6 x7 : Word) : Option Word :=
  match stepOn (start 0x1000#32 [(6#5, x6), (7#5, x7)]) w 5#5 with
  | some (v, pc, none) => if pc = 0x1004#32 then some v else none
  | _ => none

/-- One JALR with x5 set: the link register's value and the pc afterwards. -/
def jumpOn (w : Nat) (a x5 : Word) (link : RegIdx) : Option (Word × Word) :=
  (stepOn (start a [(5#5, x5)]) w link).map fun r => (r.1, r.2.1)

/-! ### Decoding: one word of every instruction (section 2.1), and what the field extremes decode to -/

theorem test_decode_lui : decode 0x123452B7#32 = .ok (.lui 5#5 0x12345000#32) := by decide
theorem test_decode_auipc : decode 0x00001297#32 = .ok (.auipc 5#5 0x00001000#32) := by decide
theorem test_decode_addi : decode 0x00500093#32 = .ok (.addi 1#5 0#5 5#32) := by decide
theorem test_decode_slti : decode 0xFFF02193#32 = .ok (.slti 3#5 0#5 0xFFFFFFFF#32) := by decide
theorem test_decode_sltiu : decode 0xFFF03193#32 = .ok (.sltiu 3#5 0#5 0xFFFFFFFF#32) := by decide
theorem test_decode_xori : decode 0xFFF34293#32 = .ok (.xori 5#5 6#5 0xFFFFFFFF#32) := by decide
theorem test_decode_ori : decode 0x0F036293#32 = .ok (.ori 5#5 6#5 0xF0#32) := by decide
theorem test_decode_andi : decode 0x0FF37293#32 = .ok (.andi 5#5 6#5 0xFF#32) := by decide
theorem test_decode_slli : decode 0x00431293#32 = .ok (.slli 5#5 6#5 4#5) := by decide
theorem test_decode_srli : decode 0x00435293#32 = .ok (.srli 5#5 6#5 4#5) := by decide
theorem test_decode_srai : decode 0x40435293#32 = .ok (.srai 5#5 6#5 4#5) := by decide
theorem test_decode_add : decode 0x007302B3#32 = .ok (.add 5#5 6#5 7#5) := by decide
theorem test_decode_sub : decode 0x407302B3#32 = .ok (.sub 5#5 6#5 7#5) := by decide
theorem test_decode_sll : decode 0x007312B3#32 = .ok (.sll 5#5 6#5 7#5) := by decide
theorem test_decode_slt : decode 0x007322B3#32 = .ok (.slt 5#5 6#5 7#5) := by decide
theorem test_decode_sltu : decode 0x007332B3#32 = .ok (.sltu 5#5 6#5 7#5) := by decide
theorem test_decode_xor : decode 0x007342B3#32 = .ok (.xor 5#5 6#5 7#5) := by decide
theorem test_decode_srl : decode 0x007352B3#32 = .ok (.srl 5#5 6#5 7#5) := by decide
theorem test_decode_sra : decode 0x407352B3#32 = .ok (.sra 5#5 6#5 7#5) := by decide
theorem test_decode_or : decode 0x007362B3#32 = .ok (.or 5#5 6#5 7#5) := by decide
theorem test_decode_and : decode 0x007372B3#32 = .ok (.and 5#5 6#5 7#5) := by decide
theorem test_decode_jalr : decode 0x010280E7#32 = .ok (.jalr 1#5 5#5 16#32) := by decide
theorem test_decode_fence : decode 0x0FF0000F#32 = .ok .fence := by decide

/-- One word of each format, bit by bit from the fields of R62 and R63. -/
theorem test_decode_from_fields :
    decode 0b00010010001101000101_00101_0110111#32 = .ok (.lui 5#5 0x12345000#32) ∧
    decode 0b111111111111_00000_011_00011_0010011#32 = .ok (.sltiu 3#5 0#5 0xFFFFFFFF#32) ∧
    decode 0b0100000_00100_00110_101_00101_0010011#32 = .ok (.srai 5#5 6#5 4#5) ∧
    decode 0b0100000_00111_00110_000_00101_0110011#32 = .ok (.sub 5#5 6#5 7#5) ∧
    decode 0b000000010000_00101_000_00001_1100111#32 = .ok (.jalr 1#5 5#5 16#32) ∧
    decode 0b100000110011_11111_000_11111_0001111#32 = .ok .fence := by decide

/-- Field extremes: bit 30 of ADDI and SLTI is an immediate bit; all fields ones; the ends of the ranges. -/
theorem test_decode_extremes :
    decode 0x40000013#32 = .ok (.addi 0#5 0#5 0x400#32) ∧
    decode 0x40002013#32 = .ok (.slti 0#5 0#5 0x400#32) ∧
    decode 0xFFFFFFB7#32 = .ok (.lui 31#5 0xFFFFF000#32) ∧
    decode 0x7FF00067#32 = .ok (.jalr 0#5 0#5 0x7FF#32) ∧
    decode 0x01F09093#32 = .ok (.slli 1#5 1#5 31#5) ∧
    decode 0x8330000F#32 = .ok .fence := by decide

/-- Words that fault: loads, stores, branches, JAL, SYSTEM, FENCE.I, MUL, a 64-bit shift amount, JALR with another funct3. -/
theorem test_decode_refuses :
    ([0x00000000#32, 0xFFFFFFFF#32, 0x00000001#32, 0x00002003#32, 0x00112023#32, 0x00000063#32, 0x0000006F#32,
      0x00000073#32, 0x00100073#32, 0x30200073#32, 0x0000202F#32, 0x0000100F#32, 0xFFFFFF8F#32, 0x00001067#32,
      0x027302B3#32, 0x40731033#32, 0x40007033#32, 0xFE000033#32, 0x02031293#32, 0x40031293#32, 0x20035293#32,
      0x0200D093#32].all fun w => decode w == .error (.unsupported w)) = true := by decide

/-- The decoder takes four bytes, least significant first, and gives the rest back; three bytes are no instruction. -/
theorem test_decode_bytes :
    decodeBytes [0x93#8, 0x00#8, 0x50#8, 0x00#8, 0xAA#8] = .ok (.addi 1#5 0#5 5#32, [0xAA#8]) ∧
    decodeBytes [0x93#8, 0x00#8, 0x50#8] = .error (.truncated 3) ∧
    decodeTableWord 32 0x00500093 = some (.addi 1#5 0#5 5#32) ∧ decodeTableWord 32 0 = none := by decide

/-- The encoder gives the spec's words. -/
theorem test_encode :
    encode (.lui 5#5 0x12345000#32) = 0x123452B7#32 ∧ encode (.sltiu 3#5 0#5 0xFFFFFFFF#32) = 0xFFF03193#32 ∧
    encode (.srai 5#5 6#5 4#5) = 0x40435293#32 ∧ encode (.sub 5#5 6#5 7#5) = 0x407302B3#32 ∧
    encode (.jalr 1#5 5#5 16#32) = 0x010280E7#32 ∧ encode .fence = 0x0000000F#32 := by decide

/-! ### Well-formedness: each check refuses an ill-formed term -/

theorem test_wf_refuses_wide_immI :
    (Instr.addi 1#5 0#5 2048#32).wf = false ∧ (Instr.jalr 1#5 0#5 0x1000#32).wf = false ∧
    (Instr.andi 1#5 0#5 0xFFFFF7FF#32).wf = false := by decide
theorem test_wf_takes_immI_ends :
    (Instr.addi 1#5 0#5 2047#32).wf = true ∧ (Instr.sltiu 1#5 0#5 0xFFFFF800#32).wf = true := by decide
theorem test_wf_refuses_low_bits_immU :
    (Instr.lui 1#5 0x12345001#32).wf = false ∧ (Instr.auipc 1#5 0x800#32).wf = false ∧
    (Instr.lui 1#5 0xFFFFF000#32).wf = true := by decide

/-- A region of 16 bytes with an image: ADDI x1, x0, 5 (0x00500093) and zeros. -/
def imageRegion : Region where
  base := 0x100#32
  size := 16
  policy := .ro
  image := some ([0x93#8, 0x00#8, 0x50#8, 0x00#8] ++ List.replicate 12 0#8)

/-- A small configuration: the region above and a read-write region of 8 bytes at the very top of the address space. -/
def smallConfig : Config where
  regions := [imageRegion, { base := 0xFFFFFFF8#32, size := 8, policy := .rw, image := none }]
  execIndex := 0
  xregInit := Vector.replicate 31 0xDEADBEEF#32

theorem test_config_wf : smallConfig.wf = true ∧ Config.example1.wf = true := by decide
theorem test_config_refuses_empty_region :
    Config.wf { smallConfig with regions := [{ imageRegion with size := 0, image := none }] } = false := by decide
theorem test_config_refuses_region_past_the_top :
    Config.wf { smallConfig with regions := [{ imageRegion with base := 0xFFFFFFF1#32 }] } = false := by decide
theorem test_config_refuses_overlap :
    Config.wf { smallConfig with regions := [imageRegion, { imageRegion with base := 0x10F#32 }] } = false := by decide
theorem test_config_refuses_wrong_image_length :
    Config.wf { smallConfig with regions := [{ imageRegion with size := 17 }] } = false := by decide
theorem test_config_refuses_image_in_ram :
    Config.wf { smallConfig with regions := [{ imageRegion with policy := .rw }] } = false := by decide
theorem test_config_refuses_exec_index :
    Config.wf { smallConfig with execIndex := 2 } = false ∧
    Config.wf { smallConfig with regions := [], execIndex := 0 } = false := by decide

/-! ### One step of every instruction (sections 2.2 to 2.5) -/

/-- U1. -/
theorem test_lui : x5After 0x123452B7 0#32 0#32 = some 0x12345000#32 := by decide
/-- U11. -/
theorem test_lui_x0 : stepOn (start 0x1000#32 []) 0x12345037 0#5 = some (0#32, 0x1004#32, none) := by decide
/-- U6. -/
theorem test_auipc : x5After 0x00001297 0#32 0#32 = some 0x2000#32 := by decide
/-- U9. -/
theorem test_auipc_wraps : stepOn (start 0x1004#32 []) 0xFFFFF297 5#5 = some (4#32, 0x1008#32, none) := by decide
/-- I3, I5. -/
theorem test_addi : x5After 0x00130293 0xFFFFFFFF#32 0#32 = some 0#32 ∧
    x5After 0x80030293 0x1000#32 0#32 = some 0x800#32 := by decide
/-- I31. -/
theorem test_addi_source_is_destination :
    stepOn (start 0x1000#32 [(5#5, 7#32)]) 0x00128293 5#5 = some (8#32, 0x1004#32, none) := by decide
/-- I7, I8, I10. -/
theorem test_slti : x5After 0xFFF32293 0#32 0#32 = some 0#32 ∧ x5After 0xFFF32293 0xFFFFFFFE#32 0#32 = some 1#32 ∧
    x5After 0x80032293 0x80000000#32 0#32 = some 1#32 := by decide
/-- I14 (C5), I15, I19. -/
theorem test_sltiu : x5After 0xFFF33293 0x1000#32 0#32 = some 1#32 ∧
    x5After 0xFFF33293 0xFFFFFFFF#32 0#32 = some 0#32 ∧ x5After 0x80033293 0xFFFFF7FF#32 0#32 = some 1#32 := by decide
/-- I22, I23. -/
theorem test_xori : x5After 0xFFF34293 0xFFFF#32 0#32 = some 0xFFFF0000#32 ∧
    x5After 0x7FF34293 0x12345678#32 0#32 = some 0x12345187#32 := by decide
/-- I24, I25. -/
theorem test_ori : x5After 0x0F036293 0xF#32 0#32 = some 0xFF#32 ∧
    x5After 0x80036293 0#32 0#32 = some 0xFFFFF800#32 := by decide
/-- I26, I27. -/
theorem test_andi : x5After 0x0FF37293 0x12345678#32 0#32 = some 0x78#32 ∧
    x5After 0x80037293 0xFFFFFFFF#32 0#32 = some 0xFFFFF800#32 := by decide
/-- H1, H2. -/
theorem test_slli : x5After 0x00431293 0x80000001#32 0#32 = some 0x10#32 ∧
    x5After 0x01F31293 1#32 0#32 = some 0x80000000#32 := by decide
/-- H4, H5. -/
theorem test_srli : x5After 0x00435293 0x80000000#32 0#32 = some 0x08000000#32 ∧
    x5After 0x01F35293 0x80000000#32 0#32 = some 1#32 := by decide
/-- H7, H9, H11. -/
theorem test_srai : x5After 0x40435293 0x80000000#32 0#32 = some 0xF8000000#32 ∧
    x5After 0x41F35293 0x7FFFFFFF#32 0#32 = some 0#32 ∧
    x5After 0x40435293 0x40000000#32 0#32 = some 0x04000000#32 := by decide
/-- A1, A2. -/
theorem test_add : x5After 0x007302B3 0xFFFFFFFF#32 1#32 = some 0#32 ∧
    x5After 0x007302B3 0x7FFFFFFF#32 1#32 = some 0x80000000#32 := by decide
/-- A36. -/
theorem test_add_x0 :
    stepOn (start 0x1000#32 [(6#5, 1#32), (7#5, 2#32)]) 0x00730033 0#5 = some (0#32, 0x1004#32, none) := by decide
/-- A4, A5. -/
theorem test_sub : x5After 0x407302B3 0#32 1#32 = some 0xFFFFFFFF#32 ∧
    x5After 0x407302B3 0x80000000#32 1#32 = some 0x7FFFFFFF#32 := by decide
/-- A9, A11. -/
theorem test_sll : x5After 0x007312B3 1#32 0x20#32 = some 1#32 ∧
    x5After 0x007312B3 0xFFFFFFFF#32 0xFFFFFFFF#32 = some 0x80000000#32 := by decide
/-- A20, A23. -/
theorem test_slt : x5After 0x007322B3 0xFFFFFFFF#32 0#32 = some 1#32 ∧
    x5After 0x007322B3 0x7FFFFFFF#32 0x80000000#32 = some 0#32 := by decide
/-- A25, A28. -/
theorem test_sltu : x5After 0x007332B3 0xFFFFFFFF#32 0#32 = some 0#32 ∧
    x5After 0x007332B3 0#32 1#32 = some 1#32 := by decide
/-- A30. -/
theorem test_xor : x5After 0x007342B3 0xFF00FF00#32 0x0FF00FF0#32 = some 0xF0F0F0F0#32 := by decide
/-- A13, A14. -/
theorem test_srl : x5After 0x007352B3 0x80000000#32 0x20#32 = some 0x80000000#32 ∧
    x5After 0x007352B3 0xFFFFFFFF#32 0x3F#32 = some 1#32 := by decide
/-- A17, A18. -/
theorem test_sra : x5After 0x407352B3 0x80000000#32 0x24#32 = some 0xF8000000#32 ∧
    x5After 0x407352B3 0x7FFFFFFF#32 4#32 = some 0x07FFFFFF#32 := by decide
/-- A31. -/
theorem test_or : x5After 0x007362B3 0xFF00FF00#32 0x0FF00FF0#32 = some 0xFFF0FFF0#32 := by decide
/-- A32. -/
theorem test_and : x5After 0x007372B3 0xFF00FF00#32 0x0FF00FF0#32 = some 0x0F000F00#32 := by decide
/-- J1, J4, J7, J9, J10. -/
theorem test_jalr :
    jumpOn 0x010280E7 0x1004#32 0x1000#32 1#5 = some (0x1008#32, 0x1010#32) ∧
    jumpOn 0x7FF280E7 0x1000#32 0#32 1#5 = some (0x1004#32, 0x7FE#32) ∧
    jumpOn 0x001280E7 0x1000#32 0xFFFFFFFF#32 1#5 = some (0x1004#32, 0#32) ∧
    jumpOn 0xFFF280E7 0x1000#32 0x1010#32 1#5 = some (0x1004#32, 0x100E#32) ∧
    jumpOn 0x800280E7 0x1000#32 0#32 1#5 = some (0x1004#32, 0xFFFFF800#32) := by decide
/-- J11 (D6): the base is the old x5; J3: x0 takes no link; J12 (D5): the link wraps, in a region that ends at 0xFFFFFFFF;
S7 of section 1: the hand-built JALR whose immediate has no encoding runs by the rule (C7). -/
theorem test_jalr_corners :
    jumpOn 0x000282E7 0x1000#32 0x1010#32 5#5 = some (0x1004#32, 0x1010#32) ∧
    jumpOn 0x7FE00067 0x1000#32 0#32 0#5 = some (0#32, 0x7FE#32) ∧
    (nextOf (step (State.withFetchWord { State.boot smallConfig with pc := 0xFFFFFFFC#32 } 32 0x000280E7))).map
      (fun u => (u.readReg 1#5, u.pc)) = some (0#32, 0xDEADBEEE#32) ∧
    (nextOf (exec (.jalr 1#5 0#5 0x1000#32) State.reset)).map (fun u => (u.readReg 1#5, u.pc)) =
      some (0x1004#32, 0x1000#32) := by decide
/-- F1, F2. -/
theorem test_fence :
    stepOn (start 0x1000#32 [(31#5, 9#32)]) 0x0FF0000F 31#5 = some (9#32, 0x1004#32, none) ∧
    stepOn (start 0x1000#32 [(31#5, 9#32)]) 0xFFFF8F8F 31#5 = some (9#32, 0x1004#32, none) := by decide
/-! ### Faults and reset (section 2.7) -/

/-- T1, T2. -/
theorem test_zero_word_halts :
    nextOf (run 1 State.reset) =
      some { State.reset with latch := some ⟨.decodeFault, 0x1000#32, none, some 0#32⟩ } ∧
    nextOf (run 3 State.reset) = nextOf (run 1 State.reset) := by decide
/-- T3. -/
theorem test_reset_clears_the_latch :
    nextOf (assertReset { State.reset with latch := some ⟨.decodeFault, 0x1000#32, none, some 0#32⟩ }) =
      some State.reset := by decide
/-- T4. -/
theorem test_crossing_fetch_halts :
    (nextOf (step (start 0x1FFE#32 []))).map (fun t => (t.pc, t.latch)) =
      some (0x1FFE#32, some ⟨.addressFault, 0x1FFE#32, some 0x1FFE#32, none⟩) := by decide
/-- T5. -/
theorem test_load_halts :
    (stepOn State.reset 0x00002003 0#5).map (fun r => (r.2.1, r.2.2)) =
      some (0x1000#32, some ⟨.decodeFault, 0x1000#32, none, some 0x2003#32⟩) := by decide
/-- T6: the registers keep XREG_INIT, x0 reads 0; from power-up the image's ADDI runs. -/
theorem test_power_up_runs_the_image :
    (nextOf (powerUp smallConfig)).map (fun t => (t.pc, t.readReg 0#5, t.readReg 31#5, fetch t)) =
      some (0x100#32, 0#32, 0xDEADBEEF#32, .ok 0x00500093#32) ∧
    (nextOf (run 1 (State.boot smallConfig))).map (fun t => (t.pc, t.readReg 1#5, t.readReg 2#5)) =
      some (0x104#32, 5#32, 0xDEADBEEF#32) := by decide

/-! ### The router (section 2.6) -/

/-- The example map with the vectors' ROM bytes. -/
def busState : State :=
  { State.reset with mem := Memory.store (Memory.store [] 0x1000 0x44332211#32 4) 0x1FFC 0xDDCCBBAA#32 4 }

/-- B1 to B8. -/
theorem test_reads :
    memRead busState 0x1000#32 .byte = .ok 0x11#32 ∧ memRead busState 0x1000#32 .half = .ok 0x2211#32 ∧
    memRead busState 0x1000#32 .word = .ok 0x44332211#32 ∧ memRead busState 0x1FFF#32 .byte = .ok 0xDD#32 ∧
    memRead busState 0x1001#32 .half = .ok 0x3322#32 ∧ memRead busState 0x1FFC#32 .word = .ok 0xDDCCBBAA#32 ∧
    memRead busState 0x1FFE#32 .half = .ok 0xDDCC#32 := by decide
/-- B9 to B17, B20. -/
theorem test_reads_fault :
    ([(0x2000#32, Width.byte), (0x0FFF#32, .byte), (0x0FFD#32, .word), (0#32, .word), (0x7FFFFFFF#32, .byte),
      (0x80100000#32, .byte), (0xFFFFFFFF#32, .byte), (0xFFFFFFFC#32, .word), (0x1FFF#32, .half),
      (0x1FFD#32, .word), (0x1FFE#32, .word), (0x800FFFFD#32, .word), (0x800FFFFF#32, .half)].all
      fun p => memRead busState p.1 p.2 == .error (.addressFault p.1)) = true := by decide
/-- B18, B19. -/
theorem test_reads_ram :
    memRead busState 0x80000000#32 .word = .ok 0#32 ∧ memRead busState 0x800FFFFF#32 .byte = .ok 0#32 ∧
    memRead busState 0x800FFFFC#32 .word = .ok 0#32 := by decide
/-- W1 to W5, W10. -/
theorem test_writes_fault :
    faultOf (memWrite busState 0x1000#32 .byte 0xAA#32) = some (.writeProtectFault 0x1000#32) ∧
    faultOf (memWrite busState 0x1FFF#32 .byte 0xAA#32) = some (.writeProtectFault 0x1FFF#32) ∧
    faultOf (memWrite busState 0x1FFE#32 .word 0xAA#32) = some (.writeProtectFault 0x1FFE#32) ∧
    faultOf (memWrite busState 0x2000#32 .byte 1#32) = some (.addressFault 0x2000#32) ∧
    faultOf (memWrite busState 0x800FFFFE#32 .word 1#32) = some (.addressFault 0x800FFFFE#32) ∧
    faultOf (memWrite busState 0x800FFFFF#32 .half 1#32) = some (.addressFault 0x800FFFFF#32) := by decide
/-- W6 to W9, then W11 to W18. -/
theorem test_writes :
    (nextOf (busWrites busState
      [(0x80000000#32, .byte, 0xAB#32), (0x800FFFFF#32, .byte, 0xCD#32), (0x80000010#32, .word, 0x11223344#32),
       (0x80000020#32, .half, 0xABCDBEEF#32), (0x80000030#32, .byte, 0x1FF#32)])).map
      (fun t => [memRead t 0x80000000#32 .byte, memRead t 0x800FFFFF#32 .byte, memRead t 0x80000010#32 .byte,
        memRead t 0x80000011#32 .byte, memRead t 0x80000012#32 .half, memRead t 0x80000011#32 .word,
        memRead t 0x80000020#32 .word, memRead t 0x80000030#32 .half, memRead t 0x800FFFFC#32 .word]) =
      some [.ok 0xAB#32, .ok 0xCD#32, .ok 0x44#32, .ok 0x33#32, .ok 0x1122#32, .ok 0x112233#32, .ok 0xBEEF#32,
        .ok 0xFF#32, .ok 0xCD000000#32] := by decide
/-- Writing what an unlisted byte reads as removes the cell: equal memories are equal data. -/
theorem test_memory_is_canonical :
    Memory.write (Memory.write [] 5 7#8) 5 0#8 = [] ∧
    Memory.write (Memory.write [] 5 7#8) 3 1#8 = [(3, 1#8), (5, 7#8)] := by decide

/-! ### Witnesses: for every statement with hypotheses, a concrete state and operands that meet all of them, for each clause,
at the ends of the ranges where there are any. A statement without hypotheses needs none. -/

/-- J5: JALR x1, x5, 0 at 0x1000 with x5 = 0x1003; the target is 0x1002. -/
def jumpState : State := (start 0x1000#32 [(5#5, 0x1003#32)]).withFetchWord 32 0x000280E7

/-- JALR x0, x5, 0 at 0x1000 with x5 = 0x1001: a jump to itself. -/
def loopState : State := (start 0x1000#32 [(5#5, 0x1001#32)]).withFetchWord 32 0x00028067

/-- ADDI x1, x0, 5 at 0x1000. -/
def addState : State := (start 0x1000#32 []).withFetchWord 32 0x00500093

/-- T1: what the reset state halts in. -/
def haltedState : State := { State.reset with latch := some ⟨.decodeFault, 0x1000#32, none, some 0#32⟩ }

/-- T4: a machine about to fetch across the end of the ROM. -/
def crossingState : State := start 0x1FFE#32 []

theorem witness_RegisterReadsItsLastWrite :
    powerUp smallConfig = .next (State.boot smallConfig) ∧
    (regWrites State.reset [(7#5, 0xDEADBEEF#32), (0#5, 1#32), (7#5, 2#32)]).readReg 7#5 = 2#32 ∧
    lastWritten? [(7#5, 0xDEADBEEF#32), (0#5, 1#32)] 31#5 = none := ⟨rfl, by decide, by decide⟩
theorem witness_EveryDestinationWriteGoesThroughTheRegisterFile :
    (31#5 : RegIdx) ≠ 0#5 ∧ (Instr.jalr 0#5 5#5 0#32).rd?.isSome = true := by decide
theorem witness_OnlyJalrOverridesTheNextPc :
    (∀ rd rs1 imm, Instr.add 1#5 2#5 3#5 ≠ .jalr rd rs1 imm) ∧ ∀ rd imm, Instr.add 1#5 2#5 3#5 ≠ .auipc rd imm :=
  ⟨fun _ _ _ => Instr.noConfusion, fun _ _ => Instr.noConfusion⟩
/-- All three cases of the first clause, and both opcodes of the second. -/
theorem witness_OnlyJalrLeavesTheStraightLine :
    (addState.latch = none ∧ (nextOf (step addState)).map (fun u => u.pc) = some 0x1004#32) ∧
    (crossingState.latch = none ∧ (nextOf (step crossingState)).map (fun u => u.latch.isSome) = some true) ∧
    (jumpState.latch = none ∧ (nextOf (step jumpState)).map (fun u => u.pc) = some 0x1002#32) ∧
    opcodeOf 0x00000063#32 = 0b1100011#7 ∧ opcodeOf 0x0000006F#32 = 0b1101111#7 := by decide
/-- The amounts 0 (of 32), 1 (of 33) and 31. -/
theorem witness_AluShiftsByTheLowFiveBits :
    (32#32 : Word).toNat % 32 = 0 ∧ (33#32 : Word).toNat % 32 = 1 ∧ (0xFFFFFFFF#32 : Word).toNat % 32 = 31 := by decide
/-- The ends of the negative immediates. -/
theorem witness_AluWorksBitByBit :
    (-2048 ≤ (0xFFFFF800#32 : Word).toInt ∧ (0xFFFFF800#32 : Word).toInt < 0) ∧
    (-2048 ≤ (0xFFFFFFFF#32 : Word).toInt ∧ (0xFFFFFFFF#32 : Word).toInt < 0) := by decide
theorem witness_NextFetchIsExactlyTheJalrTarget :
    jumpState.latch = none ∧ Fetches jumpState (.jalr 1#5 5#5 0#32) ∧
    0x1002#32 = (jumpState.readReg 5#5 + 0#32) &&& 0xFFFFFFFE#32 ∧ (1#5 : RegIdx) ≠ 0#5 :=
  ⟨by decide, ⟨0x000280E7#32, by decide, by decide⟩, by decide, by decide⟩
/-- No destination, destination x0, a destination that is a source. -/
theorem witness_AtMostOneRegisterAndThePcChange :
    Instr.fence.rd? = none ∧ (Instr.add 0#5 6#5 7#5).rd? = some 0#5 ∧
    (Instr.add 6#5 6#5 7#5).rd? = some 6#5 ∧ (6#5 : RegIdx) ≠ 0#5 ∧ (31#5 : RegIdx) ≠ 0#5 := by decide
/-- ADD x5, x6, x7 in two states that agree on the pc, x6 and x7 and differ in memory and in x8. -/
theorem witness_ResultDependsOnNamedSourcesOnly :
    busState.pc = (start 0x1000#32 [(8#5, 3#32)]).pc ∧
    (∀ r, (Instr.add 5#5 6#5 7#5).rs1? = some r → busState.readReg r = (start 0x1000#32 [(8#5, 3#32)]).readReg r) ∧
    (∀ r, (Instr.add 5#5 6#5 7#5).rs2? = some r → busState.readReg r = (start 0x1000#32 [(8#5, 3#32)]).readReg r) ∧
    busState.readReg 8#5 ≠ (start 0x1000#32 [(8#5, 3#32)]).readReg 8#5 := by
  refine ⟨by decide, ?_, ?_, by decide⟩ <;> (intro r hr; cases hr; decide)
/-- One word for each kind of immediate: the ends of the I-type range, the largest U-type, the largest amount; SLTIU. -/
theorem witness_ImmediatesComeFromTheirBits :
    decode 0x80000067#32 = .ok (.jalr 0#5 0#5 0xFFFFF800#32) ∧ decode 0x7FF00067#32 = .ok (.jalr 0#5 0#5 0x7FF#32) ∧
    decode 0xFFFFF0B7#32 = .ok (.lui 1#5 0xFFFFF000#32) ∧ decode 0x01F09093#32 = .ok (.slli 1#5 1#5 31#5) ∧
    decode 0xFFF03193#32 = .ok (.sltiu 3#5 0#5 0xFFFFFFFF#32) := by decide
theorem witness_RegisterFieldsComeFromTheirBits : decode 0x007302B3#32 = .ok (.add 5#5 6#5 7#5) := by decide
theorem witness_DecodeOfEncodeIsTheInstruction :
    (Instr.addi 31#5 31#5 0xFFFFF800#32).wf = true ∧ (Instr.lui 31#5 0xFFFFF000#32).wf = true ∧
    (Instr.srai 31#5 31#5 31#5).wf = true ∧ Instr.fence.wf = true := by decide
theorem witness_EncodeOfDecodeIsTheWord :
    decode 0x00500093#32 = .ok (.addi 1#5 0#5 5#32) ∧ Instr.addi 1#5 0#5 5#32 ≠ .fence ∧
    decode 0x0000000F#32 = .ok .fence ∧ 0x0000000F#32 &&& 0xFFFF8F80#32 = 0#32 := by decide
/-- A covered word and one that no row covers. -/
theorem witness_DecoderFollowsTheOpcodeMap :
    (⟨"MUL", 0#32, 0#32⟩ : Row) ∉ opcodeTable ∧ (⟨"SUB", 0xFE00707F#32, 0x40000033#32⟩ : Row) ∈ opcodeTable ∧
    0x407302B3#32 &&& 0xFE00707F#32 = 0x40000033#32 ∧
    ∀ row ∈ opcodeTable, 0x027302B3#32 &&& row.mask ≠ row.value := by decide
/-- A read, a fetch and a write of a word, at a misaligned address. -/
theorem witness_MultiByteValuesAreLittleEndian :
    busState.cfg.wf = true ∧ Memory.wf busState.mem ∧ memRead busState 0x1001#32 .half = .ok 0x3322#32 ∧
    fetch busState = .ok 0x44332211#32 ∧
    (nextOf (memWrite busState 0x80000001#32 .word 0xAABBCCDD#32)).isSome = true := by decide
theorem witness_ReadIsTheSumOfItsBytes :
    busState.cfg.wf = true ∧ memRead busState 0x1FFC#32 .word = .ok 0xDDCCBBAA#32 := by decide
/-- The addresses beside each end of both regions, and both ends of the address space. -/
theorem witness_UnmappedAddressFaults :
    ∀ a ∈ [0#32, 0x0FFF#32, 0x2000#32, 0x7FFFFFFF#32, 0x80100000#32, 0xFFFFFFFF#32],
      ∀ r ∈ State.reset.cfg.regions, ¬(r.base.toNat ≤ a.toNat ∧ a.toNat < r.base.toNat + r.size) := by
  simp [State.reset, Config.example1]
/-- The first and the last byte of the ROM; its last word. -/
theorem witness_ReadOnlyRegionsRefuseWrites :
    State.reset.cfg.wf = true ∧
    (⟨0x1000#32, 4096, .ro, none⟩ : Region) ∈ State.reset.cfg.regions ∧
    ((0x1000#32 : Word).toNat ≤ (0x1000#32 : Word).toNat ∧ (0x1000#32 : Word).toNat < 0x1000 + 4096) ∧
    ((0x1000#32 : Word).toNat ≤ (0x1FFF#32 : Word).toNat ∧ (0x1FFF#32 : Word).toNat < 0x1000 + 4096) ∧
    (0x1FFC#32 : Word).toNat + Width.word.bytes ≤ 0x1000 + 4096 := by decide
theorem witness_BusOutcomesAreExactlyThese : smallConfig.wf = true ∧ State.reset.cfg.wf = true := by decide
theorem witness_RegionOrderChangesNoAnswer :
    State.reset.cfg.wf = true ∧ Config.example1.regions.reverse.Perm State.reset.cfg.regions ∧
    Config.example1.regions.reverse ≠ State.reset.cfg.regions := by decide
/-- A word at an odd address of the RAM, and its last word; and a step from a multiple of 4 to 2 modulo 4. -/
theorem witness_NoAlignmentIsRequired :
    (⟨0x80000000#32, 1048576, .rw, none⟩ : Region) ∈ State.reset.cfg.regions ∧
    (0x80000001#32 : Word).toNat + Width.word.bytes ≤ 0x80000000 + 1048576 ∧
    (0x800FFFFC#32 : Word).toNat + Width.word.bytes ≤ 0x80000000 + 1048576 ∧
    jumpState.pc.toNat % 4 = 0 ∧ (nextOf (step jumpState)).map (fun u => u.pc.toNat % 4) = some 2 := by decide
/-- A write to the first byte of the RAM, to its last, and of a word in between. -/
theorem witness_BusWriteChangesOnlyItsBytes :
    busState.cfg.wf = true ∧ Memory.wf busState.mem ∧
    (nextOf (memWrite busState 0x80000000#32 .byte 0xAB#32)).isSome = true ∧
    (nextOf (memWrite busState 0x800FFFFF#32 .byte 0xCD#32)).isSome = true ∧
    (nextOf (memWrite busState 0x80000010#32 .word 0x11223344#32)).isSome = true := by decide
/-- Two overlapping writes; one address written, one not. -/
theorem witness_RegionsArePlainStorage :
    Memory.wf busState.mem ∧
    (nextOf (busWrites busState [(0x80000010#32, .word, 0x11223344#32), (0x80000011#32, .byte, 0#32)])).isSome = true ∧
    lastByte? [(0x80000010#32, .word, 0x11223344#32), (0x80000011#32, .byte, 0#32)] 0x80000013#32 = some 0x11#8 ∧
    lastByte? [(0x80000010#32, .word, 0x11223344#32), (0x80000011#32, .byte, 0#32)] 0x80000014#32 = none := by decide
theorem witness_BusWriteKeepsTheStorageForm :
    busState.cfg.wf = true ∧ Memory.wf busState.mem ∧ CellsMapped busState ∧
    (nextOf (memWrite busState 0x800FFFFC#32 .word 1#32)).isSome = true := by
  refine ⟨by decide, by decide, ?_, by decide⟩
  unfold CellsMapped
  decide
theorem witness_StepRunsTheDecodedInstruction :
    addState.latch = none ∧ fetch addState = .ok 0x00500093#32 ∧
    decode 0x00500093#32 = .ok (.addi 1#5 0#5 5#32) := by decide
theorem witness_HaltedMachineNeverChanges :
    haltedState.latch = some ⟨.decodeFault, 0x1000#32, none, some 0#32⟩ := by decide
/-- A fetch that crosses the end of the ROM, and one at an unmapped address. -/
theorem witness_FetchFaultOnlySetsTheLatch :
    (crossingState.latch = none ∧ crossingState.cfg.wf = true ∧
      ¬∃ r ∈ crossingState.cfg.regions, r.base.toNat ≤ crossingState.pc.toNat ∧
        crossingState.pc.toNat + 4 ≤ r.base.toNat + r.size) ∧
    ¬∃ r ∈ State.reset.cfg.regions, r.base.toNat ≤ (0xFFC#32 : Word).toNat ∧
      (0xFFC#32 : Word).toNat + 4 ≤ r.base.toNat + r.size := by decide
theorem witness_DecodeFaultOnlySetsTheLatch :
    State.reset.latch = none ∧ fetch State.reset = .ok 0#32 ∧
    ∀ row ∈ opcodeTable, 0#32 &&& row.mask ≠ row.value := by decide
/-- A step that runs, one whose fetch fails, one whose decoding fails. -/
theorem witness_StepHaltsExactlyOnFetchOrDecodeFault :
    addState.latch = none ∧ (nextOf (step addState)).map (fun u => u.latch) = some none ∧
    (nextOf (step crossingState)).map (fun u => u.latch.isSome) = some true ∧
    (nextOf (step State.reset)).map (fun u => u.latch.isSome) = some true := by decide
/-- ADDI, then the zero word after it. -/
theorem witness_EveryHaltIsPrecise :
    addState.latch = none ∧ (nextOf (run 2 addState)).map (fun u => (u.pc, u.latch)) =
      some (0x1004#32, some ⟨.decodeFault, 0x1004#32, none, some 0#32⟩) := by decide
theorem witness_SelfJumpRunsForever :
    loopState.latch = none ∧ Fetches loopState (.jalr 0#5 5#5 0#32) ∧
    2 * (((loopState.readReg 5#5).toNat + (0#32 : Word).toNat) % 2 ^ 32 / 2) = loopState.pc.toNat :=
  ⟨by decide, ⟨0x00028067#32, by decide, by decide⟩, by decide⟩
theorem witness_FaultPortShowsTheRecord :
    (State.reset.latch = none ∧ fetch State.reset = .ok 0#32 ∧ decode 0#32 = .error (.unsupported 0#32)) ∧
    (crossingState.latch = none ∧ fetch crossingState = .error (.addressFault 0x1FFE#32)) := by decide
/-- The invariant holds of a running state and of a halted one, and both step. -/
theorem witness_StepKeepsTheInvariant :
    State.reset.Inv ∧ haltedState.Inv ∧ (nextOf (step State.reset)).isSome = true := by
  refine ⟨⟨by decide, by decide, fun c hc => absurd hc (List.not_mem_nil), fun r hr => by cases hr⟩,
    ⟨by decide, by decide, fun c hc => absurd hc (List.not_mem_nil), fun r hr => ?_⟩, by decide⟩
  cases hr
  exact ⟨.decodeFault 0#32, by decide, by decide⟩
/-- A configuration that powers up, with a read-write region and the ends of its addresses. -/
theorem witness_PowerUpSetsThePcAndClearsRam :
    powerUp smallConfig = .next (State.boot smallConfig) ∧
    (⟨0xFFFFFFF8#32, 8, .rw, none⟩ : Region) ∈ smallConfig.regions ∧
    (0xFFFFFFF8#32 : Word).toNat ≤ (0xFFFFFFF8#32 : Word).toNat ∧
    (0xFFFFFFF8#32 : Word).toNat ≤ (0xFFFFFFFF#32 : Word).toNat ∧ (0xFFFFFFFF#32 : Word).toNat < 0xFFFFFFF8 + 8 :=
  ⟨rfl, by decide, by decide, by decide, by decide⟩
theorem witness_PowerUpMeetsTheInvariant : powerUp smallConfig = .next (State.boot smallConfig) := rfl
theorem witness_PowerUpLoadsTheImageAndRuns :
    powerUp smallConfig = .next (State.boot smallConfig) ∧
    memRead (State.boot smallConfig) 0x102#32 .byte = .ok 0x50#32 := ⟨rfl, by decide⟩
/-- A configuration that is refused: two regions share the address 0x10F. -/
theorem witness_PowerUpRefusesExactlyIllFormedConfigurations :
    ¬∃ u, powerUp { smallConfig with regions := [imageRegion, { imageRegion with base := 0x10F#32 }] } = .next u := by
  rintro ⟨u, hu⟩
  cases hu
/-- A run from power-up that ends halted: the image's ADDI, then a zero word. -/
theorem witness_ResetInputStartsANewRun :
    powerUp smallConfig = .next (State.boot smallConfig) ∧
    (nextOf (run 2 (State.boot smallConfig))).map (fun u => u.halted) = some true := ⟨rfl, by decide⟩
theorem witness_NoRunChangesMemory :
    powerUp smallConfig = .next (State.boot smallConfig) ∧
    (nextOf (run 1 (State.boot smallConfig))).map (fun u => u.halted) = some false := ⟨rfl, by decide⟩
/-- The ends of both ranges of the example map. -/
theorem witness_ResetStateHasTheExampleMap :
    (nextOf (memWrite State.reset 0x80000000#32 .byte 1#32)).isSome = true ∧
    (nextOf (memWrite State.reset 0x800FFFFF#32 .byte 1#32)).isSome = true ∧
    faultOf (memWrite State.reset 0x1000#32 .byte 1#32) = some (.writeProtectFault 0x1000#32) ∧
    faultOf (memWrite State.reset 0x1FFF#32 .byte 1#32) = some (.writeProtectFault 0x1FFF#32) ∧
    faultOf (memWrite State.reset 0x2000#32 .byte 1#32) = some (.addressFault 0x2000#32) := by decide

end Sys2Proof.Tests
end

