-- ==== Sys2Proof/Proofs/RegisterFile.lean ====
section
/-! The register file over a list of writes, and after power-up (R11). A list of writes is taken apart at its end, where the
most recent write stands. -/

namespace Sys2Proof.Machine

/-! ### One more write at the end of the list -/

@[simp] theorem regWrites_nil (s : State) : regWrites s [] = s := rfl

@[simp] theorem regWrites_concat (s : State) (ws : List (RegIdx × Word)) (w : RegIdx × Word) :
    regWrites s (ws ++ [w]) = (regWrites s ws).writeReg w.1 w.2 := by
  simp [regWrites]

@[simp] theorem lastWritten?_nil (i : RegIdx) : lastWritten? [] i = none := rfl

@[simp] theorem lastWritten?_concat (ws : List (RegIdx × Word)) (w : RegIdx × Word) (i : RegIdx) :
    lastWritten? (ws ++ [w]) i = if w.1 = i then some w.2 else lastWritten? ws i := by
  simp [lastWritten?]

/-- A register reads its last write, by induction on the list from its end: the last write is the one read, or it is to
another register and the earlier ones decide. -/
theorem readReg_regWrites (s : State) (ws : List (RegIdx × Word)) (i : RegIdx) :
    (regWrites s ws).readReg i = if i = 0#5 then 0#32 else (lastWritten? ws i).getD (s.readReg i) := by
  by_cases hi : i = 0#5
  · subst hi
    simp
  induction ws using List.reverseRecOn with
  | nil => simp [hi]
  | append_singleton ws w ih =>
    by_cases hw : w.1 = i
    · subst hw
      simp [hi, readReg_writeReg_same]
    · simpa [hw, readReg_writeReg_other _ _ _ _ (Ne.symm hw)] using ih

/-! ### Where a register is stored -/

/-- x(k+1) stands at place k of the register vector. -/
theorem readReg_succ (s : State) (k : Fin 31) : s.readReg (BitVec.ofNat 5 (k.val + 1)) = s.regs[k] := by
  have htoNat : (BitVec.ofNat 5 (k.val + 1)).toNat = k.val + 1 := by
    rw [BitVec.toNat_ofNat]
    omega
  have hnz : BitVec.ofNat 5 (k.val + 1) ≠ 0#5 := fun e => by simp [e] at htoNat
  simp [State.readReg, hnz, htoNat]

/-- The reset value of x(k+1) is the k-th of XREG_INIT (R6, R11). -/
theorem readReg_boot_succ (c : Config) (k : Fin 31) :
    (State.boot c).readReg (BitVec.ofNat 5 (k.val + 1)) = c.xregInit[k] :=
  readReg_succ _ k

/-- Settles O1: the reads after writes by induction on the list from its end, the reset values from the boot state. -/
theorem registerReadsItsLastWrite : Obligations.RegisterReadsItsLastWrite := by
  refine ⟨readReg_regWrites, fun c t h k => ?_⟩
  obtain ⟨-, rfl⟩ := powerUp_next h
  exact readReg_boot_succ c k

end Sys2Proof.Machine
end

