-- ==== Sys2Proof/Proofs/RouterAccess.lean ====
section
/-! The router's two operations (R32 to R42): one rule per outcome; what a byte reads after bus writes, from one write
to a list of them; and that a read of part of an access gives that part of its value, which is little-endianness. -/

namespace Sys2Proof.Machine

/-! ### One rule per outcome of an access -/

theorem memRead_unmapped {s : State} {a : Word} (h : regionAt s.cfg.regions a = none) (w : Width) :
    memRead s a w = .error (.addressFault a) := by
  simp [memRead, h]

theorem memRead_inside {s : State} {a : Word} {r : Region} {w : Width} (h : regionAt s.cfg.regions a = some r)
    (hin : r.holds a w.bytes = true) :
    memRead s a w = .ok (BitVec.ofNat 32 (Memory.loadNat s.mem a.toNat w.bytes)) := by
  simp [memRead, h, hin]

theorem memWrite_unmapped {s : State} {a : Word} (h : regionAt s.cfg.regions a = none) (w : Width) (v : Word) :
    memWrite s a w v = .fault (.addressFault a) := by
  simp [memWrite, h]

theorem memWrite_readOnly {s : State} {a : Word} {r : Region} (h : regionAt s.cfg.regions a = some r)
    (hp : r.policy = .ro) (w : Width) (v : Word) : memWrite s a w v = .fault (.writeProtectFault a) := by
  simp [memWrite, h, hp]

theorem memWrite_inside {s : State} {a : Word} {r : Region} {w : Width} (h : regionAt s.cfg.regions a = some r)
    (hp : r.policy = .rw) (hin : r.holds a w.bytes = true) (v : Word) :
    memWrite s a w v = .next { s with mem := Memory.store s.mem a.toNat v w.bytes } := by
  simp [memWrite, h, hp, hin]

theorem memWrite_cfg {s t : State} {a v : Word} {w : Width} (h : memWrite s a w v = .next t) : t.cfg = s.cfg := by
  obtain ⟨r, -, -, -, rfl⟩ := memWrite_next h
  rfl

theorem memWrite_mem {s t : State} {a v : Word} {w : Width} (h : memWrite s a w v = .next t) :
    t.mem = Memory.store s.mem a.toNat v w.bytes := by
  obtain ⟨r, -, -, -, rfl⟩ := memWrite_next h
  rfl

theorem memWrite_keeps_wf {s t : State} {a v : Word} {w : Width} (hm : Memory.wf s.mem)
    (h : memWrite s a w v = .next t) : Memory.wf t.mem := by
  rw [memWrite_mem h]
  exact Memory.wf_store hm _ _ _

/-- In a sound configuration a region of the table that contains an address is the one it resolves to. -/
theorem regionAt_of_config_wf {s : State} {r : Region} {a : Word} (hwf : s.cfg.wf = true) (hr : r ∈ s.cfg.regions)
    (hc : r.contains a = true) : regionAt s.cfg.regions a = some r := by
  obtain ⟨-, hdisjoint, -⟩ := (config_wf_iff _).1 hwf
  exact regionAt_of_contains hdisjoint hr hc

/-- Settles O32: the lookup comes first in both operations, and a fetch is a read at the pc. -/
theorem unmappedAddressFaults : Obligations.UnmappedAddressFaults := by
  intro s a hout
  have hnone : regionAt s.cfg.regions a = none := by
    rw [regionAt_none]
    intro r hr
    rw [Bool.eq_false_iff, ne_eq, contains_iff]
    exact hout r hr
  exact ⟨fun w => ⟨memRead_unmapped hnone w, memWrite_unmapped hnone w⟩, memRead_unmapped hnone .word⟩

/-- Settles O33: in a sound table the read-only region is the one the access resolves to. -/
theorem readOnlyRegionsRefuseWrites : Obligations.ReadOnlyRegionsRefuseWrites := by
  intro s r a w hwf hr hro hlo hhi
  have hc : r.contains a = true := (contains_iff r a).2 ⟨hlo, hhi⟩
  have hat := regionAt_of_config_wf hwf hr hc
  exact ⟨memWrite_readOnly hat hro w, fun hend => ⟨_, memRead_inside hat ((holds_of_contains hc).2 hend)⟩⟩

/-! ### A byte after bus writes (R42) -/

/-- The byte one write leaves at an address, if it covers the address. -/
def writtenByte? (w : Word × Width × Word) (b : Word) : Option Byte :=
  if w.1.toNat ≤ b.toNat ∧ b.toNat < w.1.toNat + w.2.1.bytes then
    some ((w.2.2 >>> (8 * (b.toNat - w.1.toNat))).extractLsb' 0 8)
  else none

@[simp] theorem lastByte?_nil (b : Word) : lastByte? [] b = none := rfl

theorem lastByte?_concat (ws : List (Word × Width × Word)) (w : Word × Width × Word) (b : Word) :
    lastByte? (ws ++ [w]) b = (writtenByte? w b).or (lastByte? ws b) := by
  by_cases hcov : w.1.toNat ≤ b.toNat ∧ b.toNat < w.1.toNat + w.2.1.bytes
  · simp [lastByte?, writtenByte?, hcov]
  · simp [lastByte?, writtenByte?, hcov]

/-- The first write of a list counts only where no later one covers the address. -/
theorem lastByte?_cons (w : Word × Width × Word) (ws : List (Word × Width × Word)) (b : Word) :
    lastByte? (w :: ws) b = (lastByte? ws b).or (writtenByte? w b) := by
  induction ws using List.reverseRecOn with
  | nil => simpa using lastByte?_concat [] w b
  | append_singleton ws u ih => rw [← List.cons_append, lastByte?_concat, lastByte?_concat, ih, Option.or_assoc]

/-- A successful write covers mapped addresses only. -/
theorem writtenByte?_unmapped {s t : State} {a v b : Word} {w : Width} (h : memWrite s a w v = .next t)
    (hb : regionAt s.cfg.regions b = none) : writtenByte? (a, w, v) b = none := by
  obtain ⟨r, hat, -, hin, -⟩ := memWrite_next h
  have hout := regionAt_none.1 hb r (regionAt_some hat).1
  rw [Bool.eq_false_iff, ne_eq, contains_iff] at hout
  rw [holds_iff] at hin
  exact if_neg (by simp only; omega)

/-- A byte after one write: the byte the write leaves there, or what it held before. -/
theorem memRead_memWrite {s t : State} {a v : Word} {w : Width} (hm : Memory.wf s.mem)
    (h : memWrite s a w v = .next t) (b : Word) :
    memRead t b .byte =
      (writtenByte? (a, w, v) b).elim (memRead s b .byte) (fun x => .ok (x.zeroExtend 32)) := by
  have hcfg := memWrite_cfg h
  cases hb : regionAt s.cfg.regions b with
  | none => rw [writtenByte?_unmapped h hb, memRead_unmapped (hcfg ▸ hb), memRead_unmapped hb, Option.elim_none]
  | some r =>
    rw [memRead_byte (hcfg ▸ hb), memRead_byte hb, memWrite_mem h, Memory.read_store hm, writtenByte?]
    split <;> rfl

/-- A list of writes that succeeds: its first write does, and the rest from there. -/
theorem busWrites_cons_next {s t : State} {a v : Word} {w : Width} {ws : List (Word × Width × Word)}
    (h : busWrites s ((a, w, v) :: ws) = .next t) :
    ∃ u, memWrite s a w v = .next u ∧ busWrites u ws = .next t := by
  unfold busWrites at h
  split at h
  · exact ⟨_, ‹_›, h⟩
  · cases h
  · cases h

/-- A byte after a list of writes, by induction on the list: a later write decides, or else the first one. -/
theorem memRead_busWrites {s t : State} {ws : List (Word × Width × Word)} (hm : Memory.wf s.mem)
    (h : busWrites s ws = .next t) (b : Word) :
    memRead t b .byte = (lastByte? ws b).elim (memRead s b .byte) (fun x => .ok (x.zeroExtend 32)) := by
  induction ws generalizing s with
  | nil =>
    cases h
    rfl
  | cons w ws ih =>
    obtain ⟨u, hfirst, hrest⟩ := busWrites_cons_next h
    rw [ih (memWrite_keeps_wf hm hfirst) hrest, memRead_memWrite hm hfirst, lastByte?_cons]
    cases lastByte? ws b <;> rfl

/-- Storing the same bytes again changes nothing. -/
theorem Memory.store_store_same {m : Memory} (hm : Memory.wf m) (a : Nat) (v : Word) (n : Nat) :
    Memory.store (Memory.store m a v n) a v n = Memory.store m a v n := by
  have hwf := Memory.wf_store hm a v n
  refine Memory.ext (Memory.wf_store hwf a v n) hwf fun b => ?_
  rw [Memory.read_store hwf]
  split
  · rw [Memory.read_store hm, if_pos ‹_›]
  · rfl

/-- Settles O38: the bytes after a list of writes by induction on it; a repeated write because the store is
the same. -/
theorem regionsArePlainStorage : Obligations.RegionsArePlainStorage := by
  refine ⟨fun s t ws b hm h => ?_, fun s t a v w hm h => ?_⟩
  · rw [memRead_busWrites hm h]
    cases lastByte? ws b <;> rfl
  · obtain ⟨r, hat, hrw, hin, -⟩ := memWrite_next h
    rw [memWrite_inside (memWrite_cfg h ▸ hat) hrw hin, memWrite_mem h, Memory.store_store_same hm,
      ← memWrite_mem h]

/-! ### Little-endian values (R36, R38) -/

/-- A load is its first `i` bytes and, weighted by `256 ^ i`, the rest. -/
theorem Memory.loadNat_add (m : Memory) (a i n : Nat) :
    Memory.loadNat m a (i + n) = Memory.loadNat m a i + 256 ^ i * Memory.loadNat m (a + i) n := by
  induction i generalizing a with
  | zero => simp [Memory.loadNat]
  | succ i ih =>
    have ha : a + (i + 1) = a + 1 + i := by omega
    rw [Nat.add_right_comm, Memory.loadNat, Memory.loadNat, ih, ha]
    ring

/-- The bytes `i` to `i + j - 1` of a load are the digits `i` to `i + j - 1` of its value in base 256. -/
theorem Memory.loadNat_slice (m : Memory) (a : Nat) {i j n : Nat} (h : i + j ≤ n) :
    Memory.loadNat m (a + i) j = Memory.loadNat m a n / 256 ^ i % 256 ^ j := by
  obtain ⟨l, rfl⟩ := Nat.exists_eq_add_of_le h
  rw [Nat.add_assoc, Memory.loadNat_add, Memory.loadNat_add, Nat.add_mul_div_left _ _ (by positivity),
    Nat.div_eq_of_lt (Memory.loadNat_lt _ _ _), Nat.zero_add, Nat.add_mul_mod_self_left,
    Nat.mod_eq_of_lt (Memory.loadNat_lt _ _ _)]

/-- Loading the bytes just stored gives the value, as far as they hold it. -/
theorem Memory.loadNat_store_same {m : Memory} (hm : Memory.wf m) (a : Nat) (v : Word) (n : Nat) :
    Memory.loadNat (Memory.store m a v n) a n = v.toNat % 256 ^ n := by
  induction n generalizing m a v with
  | zero => simp [Memory.loadNat, Nat.mod_one]
  | succ n ih =>
    have hfirst : Memory.read (Memory.store m a v (n + 1)) a = v.extractLsb' 0 8 := by
      simp [Memory.read_store hm]
    rw [Memory.loadNat, hfirst, Memory.store, ih (Memory.wf_write hm _ _), Nat.pow_succ', Nat.mod_mul]
    simp [BitVec.extractLsb'_toNat, Nat.shiftRight_eq_div_pow]

/-- Shifting right by whole bytes and masking gives digits in base 256. -/
theorem ofNat_digits (v : Word) (k : Nat) {n : Nat} (hn : n ≤ 4) :
    BitVec.ofNat 32 (v.toNat / 256 ^ k % 256 ^ n) = (v >>> (8 * k)) &&& BitVec.ofNat 32 (256 ^ n - 1) := by
  have hpow : ∀ j, 256 ^ j = 2 ^ (8 * j) := fun j => (Nat.pow_mul 2 8 j).symm
  have hle : 2 ^ (8 * n) ≤ 2 ^ 32 := Nat.pow_le_pow_right (by decide) (by omega)
  have hpos : 0 < 2 ^ (8 * n) := by positivity
  have hmod : ∀ x, x % 2 ^ (8 * n) < 2 ^ 32 := fun x => (Nat.mod_lt x hpos).trans_le hle
  apply BitVec.eq_of_toNat_eq
  rw [hpow, hpow, BitVec.toNat_and, BitVec.toNat_ofNat, BitVec.toNat_ofNat, Nat.mod_eq_of_lt (hmod _),
    Nat.mod_eq_of_lt (by omega : 2 ^ (8 * n) - 1 < 2 ^ 32), Nat.and_two_pow_sub_one_eq_mod, BitVec.toNat_ushiftRight,
    Nat.shiftRight_eq_div_pow]

/-- Part of an access inside a region of a sound table: its address does not wrap, resolves to the same region, and
the part lies in it. -/
theorem access_part {s : State} {r : Region} {a : Word} {n k m : Nat} (hwf : s.cfg.wf = true)
    (hat : regionAt s.cfg.regions a = some r) (hin : r.holds a n = true) (hm : 1 ≤ m) (hk : k + m ≤ n) :
    (a + BitVec.ofNat 32 k).toNat = a.toNat + k ∧ regionAt s.cfg.regions (a + BitVec.ofNat 32 k) = some r ∧
      r.holds (a + BitVec.ofNat 32 k) m = true := by
  obtain ⟨hr, -⟩ := regionAt_some hat
  obtain ⟨hregions, -, -⟩ := (config_wf_iff _).1 hwf
  obtain ⟨-, htop⟩ := region_bounds (hregions r hr)
  rw [holds_iff] at hin
  have hak : (a + BitVec.ofNat 32 k).toNat = a.toNat + k := by
    rw [BitVec.toNat_add, BitVec.toNat_ofNat]
    omega
  refine ⟨hak, regionAt_of_config_wf hwf hr ?_, ?_⟩
  · rw [contains_iff]
    omega
  · rw [holds_iff]
    omega

/-- The value of a read, as a number, is the bytes loaded: they fit in a word. -/
theorem toNat_memRead {s : State} {a v : Word} {w : Width} (h : memRead s a w = .ok v) :
    v.toNat = Memory.loadNat s.mem a.toNat w.bytes := by
  obtain ⟨r, -, -, rfl⟩ := memRead_ok h
  have hfits : 256 ^ w.bytes ≤ 256 ^ 4 := Nat.pow_le_pow_right (by decide) (width_le w)
  rw [BitVec.toNat_ofNat]
  exact Nat.mod_eq_of_lt ((Memory.loadNat_lt _ _ _).trans_le hfits)

/-- A read of part of an access gives that part of its value: offset `k` shifts by `8 * k` bits. This is the byte order,
for every width. -/
theorem memRead_slice {s : State} {a v : Word} {w w' : Width} (hwf : s.cfg.wf = true) (h : memRead s a w = .ok v)
    {k : Nat} (hk : k + w'.bytes ≤ w.bytes) :
    memRead s (a + BitVec.ofNat 32 k) w' = .ok ((v >>> (8 * k)) &&& BitVec.ofNat 32 (256 ^ w'.bytes - 1)) := by
  obtain ⟨r, hat, hin, -⟩ := memRead_ok h
  obtain ⟨hak, hat', hin'⟩ := access_part hwf hat hin (width_pos w') hk
  rw [memRead_inside hat' hin', hak, Memory.loadNat_slice _ _ hk, ← toNat_memRead h, ofNat_digits _ _ (width_le w')]

/-- The byte at offset `k` of an access. -/
theorem memRead_byte_of_access {s : State} {a v : Word} {w : Width} (hwf : s.cfg.wf = true)
    (h : memRead s a w = .ok v) {k : Nat} (hk : k < w.bytes) :
    memRead s (a + BitVec.ofNat 32 k) .byte = .ok ((v >>> (8 * k)) &&& 0xFF#32) :=
  memRead_slice (w' := .byte) hwf h hk

/-- A word just written reads back. -/
theorem memRead_word_after_memWrite {s t : State} {a v : Word} (hm : Memory.wf s.mem)
    (h : memWrite s a .word v = .next t) : memRead t a .word = .ok v := by
  obtain ⟨r, hat, -, hin, -⟩ := memWrite_next h
  rw [memRead_inside (memWrite_cfg h ▸ hat) hin, memWrite_mem h, Memory.loadNat_store_same hm]
  have hv : v.toNat % 256 ^ Width.word.bytes = v.toNat := Nat.mod_eq_of_lt v.isLt
  rw [hv, BitVec.ofNat_toNat, BitVec.setWidth_eq]

/-- The upper half of a word has no bits above its width. -/
theorem upper_half_and_mask (v : Word) : (v >>> 16) &&& 0xFFFF#32 = v >>> 16 := by
  have hlt : (v >>> 16).toNat < 2 ^ 16 := by
    rw [BitVec.toNat_ushiftRight, Nat.shiftRight_eq_div_pow]
    have := v.isLt
    omega
  apply BitVec.eq_of_toNat_eq
  exact (BitVec.toNat_and _ _).trans (Nat.and_two_pow_sub_one_of_lt_two_pow hlt)

/-- Settles O30: the bytes are slices of what is read, and a written word reads back, so its bytes and halves are slices
of it. -/
theorem multiByteValuesAreLittleEndian : Obligations.MultiByteValuesAreLittleEndian := by
  refine ⟨fun s a v w hwf h k hk => memRead_byte_of_access hwf h hk,
    fun s v hwf h k hk => memRead_byte_of_access (w := .word) hwf h hk, fun s t a v hwf hm h => ?_⟩
  have hword := memRead_word_after_memWrite hm h
  have hwf' : t.cfg.wf = true := memWrite_cfg h ▸ hwf
  have hlow := memRead_slice (w' := .half) (k := 0) hwf' hword (by decide)
  have hhigh := memRead_slice (w' := .half) (k := 2) hwf' hword (by decide)
  refine ⟨fun k hk => memRead_byte_of_access (w := .word) hwf' hword hk, ?_, ?_, hword, hword⟩
  · simpa [Width.bytes] using hlow
  · rw [← upper_half_and_mask v]
    exact hhigh

end Sys2Proof.Machine
end

