-- ==== Sys2Proof/Proofs/Immediates.lean ====
section
/-! The immediates of a decoded instruction, as bits of its word and as numbers (R64 to R66). -/

namespace Sys2Proof

/-! ### Where they are read -/

/-- Every immediate that an instruction carries is the one its format reads from the word. -/
def ImmediatesOf (bits : Word) (i : Instr) : Prop :=
  (∀ imm, i.immI? = some imm → imm = immIOf bits) ∧
  (∀ imm, i.immU? = some imm → imm = immUOf bits) ∧
  (∀ shamt, i.shamt? = some shamt → shamt = shamtOf bits)

/-- R70 and R71: a case per funct3; the cases 7 and 8 are the shifts, which funct7 divides further. -/
theorem immediatesOf_decodeOpImm {bits : Word} {i : Instr} (h : decodeOpImm bits = some i) : ImmediatesOf bits i := by
  unfold decodeOpImm at h
  split at h
  case h_7 | h_8 => split at h <;> cases h <;> simp [ImmediatesOf, Instr.immI?, Instr.immU?, Instr.shamt?]
  all_goals cases h <;> simp [ImmediatesOf, Instr.immI?, Instr.immU?, Instr.shamt?]

/-- R72: no register-register instruction carries an immediate. -/
theorem immediatesOf_decodeOp {bits : Word} {i : Instr} (h : decodeOp bits = some i) : ImmediatesOf bits i := by
  unfold decodeOp at h
  split at h <;> cases h <;> simp [ImmediatesOf, Instr.immI?, Instr.immU?, Instr.shamt?]

/-- The six major opcodes: LUI, AUIPC, the two families above, JALR and FENCE. -/
theorem immediatesOf_decode {bits : Word} {i : Instr} (h : decode bits = .ok i) : ImmediatesOf bits i := by
  rcases decode_cases h with ⟨-, rfl⟩ | ⟨-, rfl⟩ | ⟨-, himm⟩ | ⟨-, hreg⟩ | ⟨-, -, rfl⟩ | ⟨-, -, rfl⟩
  · simp [ImmediatesOf, Instr.immI?, Instr.immU?, Instr.shamt?]
  · simp [ImmediatesOf, Instr.immI?, Instr.immU?, Instr.shamt?]
  · exact immediatesOf_decodeOpImm himm
  · exact immediatesOf_decodeOp hreg
  · simp [ImmediatesOf, Instr.immI?, Instr.immU?, Instr.shamt?]
  · simp [ImmediatesOf, Instr.immI?, Instr.immU?, Instr.shamt?]

/-! ### Their values -/

/-- The sign extension keeps the signed value of the 12 bits (R64). -/
theorem toInt_immIOf_bounds (bits : Word) : -2048 ≤ (immIOf bits).toInt ∧ (immIOf bits).toInt ≤ 2047 := by
  have hext : (immIOf bits).toInt = (bits.extractLsb' 20 12).toInt := BitVec.toInt_signExtend_of_le (by decide)
  have hlo := BitVec.le_toInt (bits.extractLsb' 20 12)
  have hhi := BitVec.toInt_lt (x := bits.extractLsb' 20 12)
  omega

theorem toNat_immUOf (bits : Word) : (immUOf bits).toNat = bits.toNat / 2 ^ 12 * 2 ^ 12 := by
  have happend : (immUOf bits).toNat = (bits.extractLsb' 12 20 ++ 0#12).toNat := rfl
  have hfits : bits.toNat / 2 ^ 12 < 2 ^ 20 := by
    have := bits.isLt
    omega
  rw [happend, BitVec.toNat_append, BitVec.toNat_zero, Nat.or_zero, BitVec.extractLsb'_toNat,
    Nat.shiftRight_eq_div_pow, Nat.mod_eq_of_lt hfits, Nat.shiftLeft_eq]

theorem toNat_shamtOf (bits : Word) : (shamtOf bits).toNat = bits.toNat / 2 ^ 20 % 2 ^ 5 := by
  rw [shamtOf, BitVec.extractLsb'_toNat, Nat.shiftRight_eq_div_pow]

end Sys2Proof

namespace Sys2Proof.Machine

/-- SLTIU retires the unsigned comparison with its immediate (R132). -/
theorem exec_sltiu (rd rs1 : RegIdx) (imm : Word) (s : State) :
    exec (.sltiu rd rs1 imm) s = .next (s.retire rd (truth (lessUnsigned (s.readReg rs1) imm)) none) := rfl

/-- Settles O23: each immediate is the one its format reads from the word, whose bits and value are known; SLTIU from
what it retires. -/
theorem immediatesComeFromTheirBits : Obligations.ImmediatesComeFromTheirBits := by
  intro bits i h
  obtain ⟨himmI, himmU, hshamt⟩ := immediatesOf_decode h
  refine ⟨fun imm e => ?_, fun imm e => ?_, fun shamt e => ?_, fun rd rs1 imm e s => ?_⟩
  · rw [himmI imm e]
    refine ⟨fun k hk => ?_, fun k hlo hhi => ?_, toInt_immIOf_bounds bits⟩
    · rw [getLsbD_immIOf bits k (by omega), if_pos hk]
    · rw [getLsbD_immIOf bits k hhi, if_neg (by omega)]
  · rw [himmU imm e]
    exact ⟨immUOf_eq bits, toNat_immUOf bits⟩
  · rw [hshamt shamt e, toNat_shamtOf]
  · subst e
    refine ⟨_, exec_sltiu rd rs1 imm s, fun hrd => ?_⟩
    simp [readReg_retire, hrd, truth, lessUnsigned]

end Sys2Proof.Machine
end

