-- ==== Sys2Proof/Proofs/OpcodeMap.lean ====
section
/-! A word has one decoding (R67): the decoder answers an instruction or the fault, and the rows of the opcode map do
not overlap. -/

namespace Sys2Proof

/-- Rows that cover a common word agree on the bits that both compare. -/
theorem values_agree_of_covers {r q : Row} {bits : Word} (hr : r.covers bits = true) (hq : q.covers bits = true) :
    r.value &&& q.mask = q.value &&& r.mask := by
  rw [Row.covers, beq_iff_eq] at hr hq
  rw [← hr, ← hq, BitVec.and_assoc, BitVec.and_comm r.mask, BitVec.and_assoc]

/-- Any two rows of the map differ in a bit that both compare: a check of the 23 rows, without the words. -/
theorem opcodeTable_values_differ :
    opcodeTable.Pairwise (fun r q => r.value &&& q.mask ≠ q.value &&& r.mask) := by decide

/-- Settles O28: a refusal carries the word, and two rows that cover one word would agree on the bits that both
compare. -/
theorem everyWordHasOneDecoding : Obligations.EveryWordHasOneDecoding := by
  refine ⟨fun bits => ?_,
    opcodeTable_values_differ.imp fun hdiffer bits ⟨hr, hq⟩ => hdiffer (values_agree_of_covers hr hq)⟩
  cases h : decode bits with
  | ok i => exact .inl ⟨⟨i, rfl, fun j hj => (Except.ok.inj hj).symm⟩, nofun⟩
  | error e =>
    obtain rfl := decode_error h
    exact .inr ⟨rfl, nofun⟩

end Sys2Proof
end

