-- ==== Sys2Proof/Proofs/AluOperations.lean ====
section
/-! The ALU as arithmetic and as bits (R99 to R102): what each operation answers as a number, signed and unsigned, and
bit by bit. The two readings of a word agree modulo 2^32, which is why one adder serves both. -/

namespace Sys2Proof.Machine

/-! ### Addition and subtraction (R99) -/

/-- The unsigned reading is the signed one modulo 2^32. -/
theorem toNat_eq_toInt_emod (x : Word) : (x.toNat : Int) = x.toInt % 2 ^ 32 := by
  have hlt := x.isLt
  rw [BitVec.toInt_eq_toNat_cond]
  split <;> omega

theorem toNat_alu_add (a b : Word) : (alu .add a b).toNat = (a.toNat + b.toNat) % 2 ^ 32 :=
  BitVec.toNat_add a b

theorem toNat_alu_sub (a b : Word) :
    ((alu .sub a b).toNat : Int) = ((a.toNat : Int) - b.toNat) % 2 ^ 32 := by
  have hb := b.isLt
  rw [alu, BitVec.toNat_sub]
  omega

theorem toNat_alu_add_signed (a b : Word) :
    ((alu .add a b).toNat : Int) = (a.toInt + b.toInt) % 2 ^ 32 := by
  rw [toNat_eq_toInt_emod, alu, BitVec.toInt_add]
  exact Int.bmod_emod

theorem toNat_alu_sub_signed (a b : Word) :
    ((alu .sub a b).toNat : Int) = (a.toInt - b.toInt) % 2 ^ 32 := by
  rw [toNat_eq_toInt_emod, alu, BitVec.toInt_sub]
  exact Int.bmod_emod

/-- Settles O5: a word-sized sum or difference is the integer one modulo 2^32, in either reading. -/
theorem aluAddsAndSubtractsModuloTwoToThe32 : Obligations.AluAddsAndSubtractsModuloTwoToThe32 :=
  ⟨fun a b => ⟨toNat_alu_add a b, toNat_alu_sub a b, toNat_alu_add_signed a b, toNat_alu_sub_signed a b⟩,
    by decide, by decide, by decide, by decide, BitVec.sub_self⟩

/-! ### Shifts (R100) -/

theorem alu_sll (a b : Word) : alu .sll a b = a <<< (b.toNat % 32) := by
  rw [alu, shiftAmount_eq]

theorem alu_srl (a b : Word) : alu .srl a b = a >>> (b.toNat % 32) := by
  rw [alu, shiftAmount_eq]

theorem alu_sra (a b : Word) : alu .sra a b = a.sshiftRight (b.toNat % 32) := by
  rw [alu, shiftAmount_eq]

/-- The amount alone decides: the operand's bits above the low five do not count. -/
theorem alu_shifts_congr (a : Word) {b b' : Word} (h : b'.toNat % 32 = b.toNat % 32) :
    alu .sll a b' = alu .sll a b ∧ alu .srl a b' = alu .srl a b ∧ alu .sra a b' = alu .sra a b := by
  simp only [alu_sll, alu_srl, alu_sra, h, and_self]

theorem toNat_alu_sll (a b : Word) : (alu .sll a b).toNat = a.toNat * 2 ^ (b.toNat % 32) % 2 ^ 32 := by
  rw [alu_sll, BitVec.toNat_shiftLeft, Nat.shiftLeft_eq]

theorem toNat_alu_srl (a b : Word) : (alu .srl a b).toNat = a.toNat / 2 ^ (b.toNat % 32) := by
  rw [alu_srl, BitVec.toNat_ushiftRight, Nat.shiftRight_eq_div_pow]

/-- SRA is the floor of the signed quotient. -/
theorem toInt_alu_sra (a b : Word) : (alu .sra a b).toInt = a.toInt / 2 ^ (b.toNat % 32) := by
  rw [alu_sra, BitVec.toInt_sshiftRight, Int.shiftRight_eq_div_pow]
  norm_cast

theorem toNat_alu_sra (a b : Word) :
    ((alu .sra a b).toNat : Int) = a.toInt / 2 ^ (b.toNat % 32) % 2 ^ 32 := by
  rw [toNat_eq_toInt_emod, toInt_alu_sra]

theorem getLsbD_alu_sll (a b : Word) {k : Nat} (hk : k < 32) :
    (alu .sll a b).getLsbD k = (decide (b.toNat % 32 ≤ k) && a.getLsbD (k - b.toNat % 32)) := by
  rw [alu_sll, BitVec.getLsbD_shiftLeft]
  simp only [hk, decide_true, Bool.true_and, ← decide_not, Nat.not_lt]

/-- SRL lets zeros enter from above. -/
theorem getLsbD_alu_srl (a b : Word) (k : Nat) :
    (alu .srl a b).getLsbD k = (decide (k + b.toNat % 32 < 32) && a.getLsbD (k + b.toNat % 32)) := by
  rw [alu_srl, BitVec.getLsbD_ushiftRight, Nat.add_comm (b.toNat % 32) k]
  by_cases hin : k + b.toNat % 32 < 32
  · simp [hin]
  · simp [BitVec.getLsbD_of_ge a _ (by omega : 32 ≤ k + b.toNat % 32)]

/-- SRA lets copies of bit 31 enter from above. -/
theorem getLsbD_alu_sra (a b : Word) {k : Nat} (hk : k < 32) :
    (alu .sra a b).getLsbD k =
      if k + b.toNat % 32 < 32 then a.getLsbD (k + b.toNat % 32) else a.getLsbD 31 := by
  have hin : ¬ 32 ≤ k := by omega
  rw [alu_sra, BitVec.getLsbD_sshiftRight, Nat.add_comm (b.toNat % 32) k, BitVec.msb_eq_getLsbD_last]
  simp [hin]

/-- At amount 0 nothing moves. -/
theorem alu_shifts_of_amount_zero (a : Word) {b : Word} (h : b.toNat % 32 = 0) :
    alu .sll a b = a ∧ alu .srl a b = a ∧ alu .sra a b = a := by
  simp [alu_sll, alu_srl, alu_sra, h]

/-- At amount 31 SLL leaves bit 0, at the top: the number is the parity times 2^31. -/
theorem alu_sll_of_amount_31 (a : Word) {b : Word} (h : b.toNat % 32 = 31) :
    alu .sll a b = if a.getLsbD 0 then 0x80000000#32 else 0#32 := by
  apply BitVec.eq_of_toNat_eq
  rw [toNat_alu_sll, h, ← BitVec.testBit_toNat, Nat.testBit_zero]
  simp only [decide_eq_true_eq]
  split <;> simp only [BitVec.toNat_ofNat] <;> omega

/-- Bit 31 says that the signed reading is negative. -/
theorem getLsbD_31_iff (a : Word) : a.getLsbD 31 = true ↔ a.toInt < 0 := by
  rw [← decide_eq_true_iff (p := a.toInt < 0), ← BitVec.msb_eq_toInt, BitVec.msb_eq_getLsbD_last]

/-- At amount 31 SRL leaves bit 31, at the bottom. -/
theorem alu_srl_of_amount_31 (a : Word) {b : Word} (h : b.toNat % 32 = 31) :
    alu .srl a b = if a.getLsbD 31 then 1#32 else 0#32 := by
  have hlt := a.isLt
  apply BitVec.eq_of_toNat_eq
  rw [toNat_alu_srl, h]
  simp only [getLsbD_31_iff, BitVec.toInt_neg_iff]
  split <;> simp only [BitVec.toNat_ofNat] <;> omega

/-- At amount 31 SRA leaves the sign alone: -1 or 0. -/
theorem alu_sra_of_amount_31 (a : Word) {b : Word} (h : b.toNat % 32 = 31) :
    alu .sra a b = if a.getLsbD 31 then 0xFFFFFFFF#32 else 0#32 := by
  have hlo := BitVec.le_toInt a
  have hhi := BitVec.toInt_lt (x := a)
  apply BitVec.eq_of_toInt_eq
  rw [toInt_alu_sra, h]
  simp only [getLsbD_31_iff]
  split
  · have hminus : (0xFFFFFFFF#32 : Word).toInt = -1 := by decide
    omega
  · have hzero : (0#32 : Word).toInt = 0 := by decide
    omega

/-- Settles O6: the integer laws, the bits and the two ends of the amount, each a law of the three operations above. -/
theorem aluShiftsByTheLowFiveBits : Obligations.AluShiftsByTheLowFiveBits := by
  rintro a b sh rfl
  exact ⟨toNat_alu_sll a b, toNat_alu_srl a b, toNat_alu_sra a b,
    fun k hk => ⟨getLsbD_alu_sll a b hk, getLsbD_alu_srl a b k, getLsbD_alu_sra a b hk⟩,
    alu_shifts_of_amount_zero a,
    fun h => ⟨alu_sll_of_amount_31 a h, alu_srl_of_amount_31 a h, alu_sra_of_amount_31 a h⟩,
    fun _ h => alu_shifts_congr a h⟩

/-! ### Comparisons (R101) -/

theorem alu_slt (a b : Word) : alu .slt a b = if a.toInt < b.toInt then 1#32 else 0#32 := by
  simp [alu, lessSigned, truth]

theorem alu_sltu (a b : Word) : alu .sltu a b = if a.toNat < b.toNat then 1#32 else 0#32 := by
  simp [alu, lessUnsigned, truth]

/-- SLTU against 0 tests for a word that is not 0. -/
theorem alu_sltu_zero_eq_one_iff (b : Word) : alu .sltu 0#32 b = 1#32 ↔ b ≠ 0#32 := by
  have hpos : (0#32 : Word).toNat < b.toNat ↔ b ≠ 0#32 := by
    rw [BitVec.toNat_zero, Nat.pos_iff_ne_zero, ne_eq, ne_eq, BitVec.toNat_eq, BitVec.toNat_zero]
  rw [alu_sltu, ← hpos]
  split
  · exact iff_of_true rfl ‹_›
  · exact iff_of_false (by decide) ‹_›

/-- Settles O7: the two comparisons, which are strict, so that equal operands give 0. -/
theorem aluComparesSignedAndUnsigned : Obligations.AluComparesSignedAndUnsigned :=
  ⟨fun a b => ⟨alu_slt a b, alu_sltu a b⟩,
    fun a => ⟨by rw [alu_slt, if_neg (lt_irrefl _)], by rw [alu_sltu, if_neg (lt_irrefl _)]⟩,
    by decide, by decide, by decide, by decide, alu_sltu_zero_eq_one_iff⟩

/-! ### Bitwise operations (R102) -/

theorem getLsbD_alu_xor (a b : Word) (k : Nat) : (alu .xor a b).getLsbD k = (a.getLsbD k ^^ b.getLsbD k) :=
  BitVec.getLsbD_xor

theorem getLsbD_alu_or (a b : Word) (k : Nat) : (alu .or a b).getLsbD k = (a.getLsbD k || b.getLsbD k) :=
  BitVec.getLsbD_or

theorem getLsbD_alu_and (a b : Word) (k : Nat) : (alu .and a b).getLsbD k = (a.getLsbD k && b.getLsbD k) :=
  BitVec.getLsbD_and

/-- XOR with -1, all 32 bits set, turns every bit over. -/
theorem getLsbD_alu_xor_minus_one (a : Word) {k : Nat} (hk : k < 32) :
    (alu .xor a 0xFFFFFFFF#32).getLsbD k = !a.getLsbD k := by
  have hones : (0xFFFFFFFF#32 : Word) = BitVec.allOnes 32 := by decide
  rw [getLsbD_alu_xor, hones, BitVec.getLsbD_allOnes, decide_eq_true hk, Bool.xor_true]

/-- A negative number of 12 bits has all its bits from 11 on set: its complement is below 2^11. -/
theorem getLsbD_of_negative_imm {imm : Word} (hlo : -2048 ≤ imm.toInt) (hneg : imm.toInt < 0) {k : Nat}
    (hk : 11 ≤ k) (hk' : k < 32) : imm.getLsbD k = true := by
  have hsmall : (~~~imm).toNat < 2 ^ 11 := by
    have hmod := toNat_eq_toInt_emod imm
    rw [BitVec.toNat_not]
    omega
  have hclear : (~~~imm).getLsbD k = false := by
    rw [← BitVec.testBit_toNat]
    exact Nat.testBit_lt_two_pow (hsmall.trans_le (Nat.pow_le_pow_right (by decide) hk))
  simpa [BitVec.getLsbD_not, hk'] using hclear

/-! ### An instruction that retires one ALU result (R103) -/

/-- Retiring a result writes the destination and nothing else but the pc. -/
theorem writesOnly_retire (s : State) (rd : RegIdx) (v : Word) (target : Option Word) :
    WritesOnly rd v s (s.retire rd v target) := by
  refine ⟨?_, fun r hr => ?_, fun a => ?_, by simp, by simp⟩
  · simp [readReg_retire]
  · by_cases hr0 : r = 0#5
    · subst hr0
      simp
    · simp [readReg_retire, hr, hr0]
  · exact memRead_congr (by simp) (by simp) _ _

/-- XORI retires the XOR with its immediate (R133). -/
theorem exec_xori (rd rs1 : RegIdx) (imm : Word) (s : State) :
    exec (.xori rd rs1 imm) s = .next (s.retire rd (alu .xor (s.readReg rs1) imm) none) := rfl

/-- ANDI retires the AND with its immediate (R135). -/
theorem exec_andi (rd rs1 : RegIdx) (imm : Word) (s : State) :
    exec (.andi rd rs1 imm) s = .next (s.retire rd (alu .and (s.readReg rs1) imm) none) := rfl

/-- Settles O8: each operation is one of the bits alone; -1 has every bit set, and a negative immediate every bit from
11 on. -/
theorem aluWorksBitByBit : Obligations.AluWorksBitByBit := by
  refine ⟨fun a b k _ => ⟨getLsbD_alu_xor a b k, getLsbD_alu_or a b k, getLsbD_alu_and a b k⟩,
    fun rd rs1 s => ⟨_, _, exec_xori rd rs1 _ s, writesOnly_retire s rd _ _, fun k hk => ?_⟩,
    fun rd rs1 imm s himm => ⟨_, _, exec_andi rd rs1 imm s, writesOnly_retire s rd _ _, fun k hlo hhi => ?_⟩⟩
  · exact getLsbD_alu_xor_minus_one _ hk
  · rw [getLsbD_alu_and, getLsbD_of_negative_imm himm.1 himm.2 hlo hhi, Bool.and_true]

end Sys2Proof.Machine
end

