-- ==== Sys2Proof/Proofs/PowerUp.lean ====
section
/-! Storage and pc after power-up (R221, R223, R224): storage is built by one store of bytes per region, so in a
sound table a byte is decided by the region around it alone. -/

namespace Sys2Proof.Machine

/-! ### One region after the other -/

theorem region_disjoint_comm (r q : Region) : r.disjoint q = q.disjoint r := Bool.or_comm _ _

/-- Of a sound region, the image is stored from the base on; a region without one stores nothing. -/
theorem romStorage_cons {r : Region} (hr : r.wf = true) (rs : List Region) :
    romStorage (r :: rs) = Memory.storeBytes (romStorage rs) r.base.toNat (r.image.getD []) := by
  cases hi : r.image with
  | none => simp [romStorage, hi, Memory.storeBytes]
  | some bytes => simp [romStorage, hi, (region_image hr hi).1]

theorem image_length_le {r : Region} (hr : r.wf = true) : (r.image.getD []).length ≤ r.size := by
  cases hi : r.image with
  | none => exact Nat.zero_le _
  | some bytes => exact (region_image hr hi).2.le

/-- A sound read-write region has no image (R6). -/
theorem image_none_of_rw {r : Region} (hr : r.wf = true) (hp : r.policy = .rw) : r.image = none := by
  cases hi : r.image with
  | none => rfl
  | some bytes =>
    obtain ⟨hro, -⟩ := region_image hr hi
    cases hp.symm.trans hro

/-- A region decides no byte outside it. -/
theorem read_romStorage_cons_outside {r : Region} {rs : List Region} {a : Word} (hr : r.wf = true)
    (ha : r.contains a = false) :
    Memory.read (romStorage (r :: rs)) a.toNat = Memory.read (romStorage rs) a.toNat := by
  have hlen := image_length_le hr
  rw [Bool.eq_false_iff, ne_eq, contains_iff] at ha
  rw [romStorage_cons hr, Memory.read_storeBytes (wf_romStorage rs), if_neg (by omega)]

/-- Outside every region a byte reads as an unlisted one. -/
theorem read_romStorage_unmapped {rs : List Region} {a : Word} (hwf : ∀ r ∈ rs, r.wf = true)
    (ha : ∀ r ∈ rs, r.contains a = false) : Memory.read (romStorage rs) a.toNat = Memory.unlisted := by
  induction rs with
  | nil => rfl
  | cons r rs ih =>
    rw [List.forall_mem_cons] at hwf ha
    rw [read_romStorage_cons_outside hwf.1 ha.1, ih hwf.2 ha.2]

/-- A byte no later region contains: the first region's image decides, zero where it has none. -/
theorem read_romStorage_cons_inside {r : Region} {rs : List Region} {a : Word} (hr : r.wf = true)
    (ha : r.contains a = true) (hrest : Memory.read (romStorage rs) a.toNat = Memory.unlisted) :
    Memory.read (romStorage (r :: rs)) a.toNat =
      (r.image.getD []).getD (a.toNat - r.base.toNat) Memory.unlisted := by
  rw [contains_iff] at ha
  rw [romStorage_cons hr, Memory.read_storeBytes (wf_romStorage rs)]
  split
  · rfl
  · rw [hrest, List.getD_eq_default _ _ (by omega)]

/-- In a sound table a byte is that of the image of the region around it, zero where that has none (R223, R224). -/
theorem read_romStorage {rs : List Region} {r : Region} {a : Word} (hwf : ∀ q ∈ rs, q.wf = true)
    (hd : disjointRegions rs = true) (hr : r ∈ rs) (ha : r.contains a = true) :
    Memory.read (romStorage rs) a.toNat =
      (r.image.getD []).getD (a.toNat - r.base.toNat) Memory.unlisted := by
  induction rs with
  | nil => cases hr
  | cons q rs ih =>
    rw [List.forall_mem_cons] at hwf
    simp only [disjointRegions, Bool.and_eq_true, List.all_eq_true] at hd
    rcases List.mem_cons.1 hr with rfl | hr
    · exact read_romStorage_cons_inside hwf.1 ha
        (read_romStorage_unmapped hwf.2 fun q hq => disjoint_not_both (hd.1 q hq) ha)
    · have hq : q.contains a = false := disjoint_not_both (region_disjoint_comm q r ▸ hd.1 r hr) ha
      rw [read_romStorage_cons_outside hwf.1 hq, ih hwf.2 hd.2 hr]

/-! ### The state after power-up -/

/-- A byte of a region after power-up (R223, R224). -/
theorem memRead_boot_byte {c : Config} {r : Region} {a : Word} (hwf : c.wf = true) (hr : r ∈ c.regions)
    (ha : r.contains a = true) :
    memRead (State.boot c) a .byte =
      .ok (((r.image.getD []).getD (a.toNat - r.base.toNat) Memory.unlisted).zeroExtend 32) := by
  obtain ⟨hregions, hdisjoint, -⟩ := (config_wf_iff c).1 hwf
  rw [memRead_byte (s := State.boot c) (regionAt_of_config_wf hwf hr ha), State.boot,
    read_romStorage hregions hdisjoint hr ha]

/-- EXEC_REGION of a sound configuration names a region, and its base is the reset pc (R221). -/
theorem resetPc_eq_base {c : Config} (hwf : c.wf = true) :
    ∃ r, c.regions[c.execIndex]? = some r ∧ c.resetPc = r.base := by
  obtain ⟨-, -, hexec⟩ := (config_wf_iff c).1 hwf
  have hr := List.getElem?_eq_getElem hexec
  exact ⟨_, hr, by rw [Config.resetPc, hr]⟩

/-- Settles O51: the pc from the configuration check, the zero bytes because a read-write region has no image. -/
theorem powerUpSetsThePcAndClearsRam : Obligations.PowerUpSetsThePcAndClearsRam := by
  refine ⟨fun c t h => ?_, State.reset, reset_eq_boot ▸ rfl, rfl⟩
  obtain ⟨hwf, rfl⟩ := powerUp_next h
  refine ⟨?_, fun r hr hrw a hlo hhi => ?_⟩
  · obtain ⟨r, hexec, hpc⟩ := resetPc_eq_base hwf
    have hboot : (State.boot c).pc = r.base := hpc
    exact ⟨r, hexec, hboot, by rw [fetch, hboot]⟩
  · obtain ⟨hregions, -, -⟩ := (config_wf_iff c).1 hwf
    rw [memRead_boot_byte hwf hr ((contains_iff r a).2 ⟨hlo, hhi⟩), image_none_of_rw (hregions r hr) hrw]
    rfl

end Sys2Proof.Machine
end


namespace Sys2Proof

/-! ## The decoder

The encoder and the decoder undo each other (R81): a word is put together again from the fields that the decoder reads,
and the decoder reads back the fields that the encoder wrote. With that, the rows of the opcode map are the words of
their instructions. -/

/-! ### The bytes of a word -/

/-- The bytes of a word, put together again, are the word (R61). -/
theorem wordOfBytes_bytesOfWord (w : Word) :
    wordOfBytes (w.extractLsb' 0 8) (w.extractLsb' 8 8) (w.extractLsb' 16 8) (w.extractLsb' 24 8) = w := by
  apply BitVec.eq_of_getLsbD_eq
  intro k hk
  unfold wordOfBytes
  change BitVec.getLsbD (w := 8 + 8 + 8 + 8) (_ ++ _ ++ _ ++ _) k = _
  simp only [BitVec.getLsbD_append, BitVec.getLsbD_extractLsb']
  grind

/-- Decoding the bytes of a word is decoding the word. -/
theorem decodeBytes_bytesOfWord (w : Word) (rest : List Byte) :
    decodeBytes (bytesOfWord w ++ rest) = (decode w).map (fun i => (i, rest)) := by
  simp only [bytesOfWord, List.cons_append, List.nil_append, decodeBytes, wordOfBytes_bytesOfWord]

/-! ### What the checks of the immediates mean -/

theorem immIFits_iff (imm : Word) : immIFits imm = true ↔ (imm.extractLsb' 0 12).signExtend 32 = imm := by
  rw [immIFits, beq_iff_eq]

/-- An immediate without low bits is its high bits and 12 zeros. -/
theorem append_zeros_of_immUFits {imm : Word} (h : immUFits imm = true) :
    imm.extractLsb' 12 20 ++ 0#12 = imm := by
  rw [immUFits, beq_iff_eq] at h
  apply BitVec.eq_of_getLsbD_eq (w := 20 + 12)
  intro k hk
  rw [← h, BitVec.getLsbD_append, BitVec.getLsbD_extractLsb', BitVec.getLsbD_extractLsb']
  grind

theorem instr_wf_iff (i : Instr) :
    i.wf = true ↔ (∀ imm, i.immI? = some imm → immIFits imm = true) ∧
      (∀ imm, i.immU? = some imm → immUFits imm = true) := by
  simp only [Instr.wf, Bool.and_eq_true, Option.all_eq_true]

/-! ### Decode of encode -/

/-- By format: the fields read back what was encoded, and an immediate that fits its field comes back whole. -/
theorem decode?_encode {i : Instr} (h : i.wf = true) : decode? (encode i) = some i := by
  obtain ⟨hI, hU⟩ := (instr_wf_iff i).1 h
  cases i
  case lui | auipc => simp [encode, decode?, append_zeros_of_immUFits (hU _ rfl)]
  case addi | slti | sltiu | xori | ori | andi =>
    simp [encode, decode?, decodeOpImm, (immIFits_iff _).1 (hI _ rfl)]
  case slli | srli | srai => simp [encode, decode?, decodeOpImm]
  case jalr => simp [encode, decode?, decodeJalr, (immIFits_iff _).1 (hI _ rfl)]
  case fence => rfl
  all_goals simp [encode, decode?, decodeOp]

/-- The dispatch's instruction is the decoder's. -/
theorem decode_of_decode? {bits : Word} {i : Instr} (h : decode? bits = some i) : decode bits = .ok i := by
  simp [decode, h]

/-- Settles O25: the word by format, the bytes because they make the word again. -/
theorem decodeOfEncodeIsTheInstruction : Obligations.DecodeOfEncodeIsTheInstruction := by
  intro i h
  have hword := decode_of_decode? (decode?_encode h)
  refine ⟨hword, fun rest => ?_⟩
  rw [encodeBytes, decodeBytes_bytesOfWord, hword]
  rfl

/-! ### Encode of decode -/

/-- A word is the format R word of its own fields (R62, R63). -/
theorem encodeR_fields (bits : Word) :
    encodeR (funct7Of bits) (rs2Of bits) (rs1Of bits) (funct3Of bits) (rdOf bits) (opcodeOf bits) = bits := by
  apply BitVec.eq_of_getLsbD_eq
  intro k hk
  simp only [getLsbD_encodeR, funct7Of, rs2Of, rs1Of, funct3Of, rdOf, opcodeOf, BitVec.getLsbD_extractLsb']
  grind

/-- The low bits of the I-type immediate are the field it was read from. -/
theorem extract_immIOf (bits : Word) : (immIOf bits).extractLsb' 0 12 = bits.extractLsb' 20 12 :=
  extract_eq fun k hk => by
    rw [Nat.zero_add, getLsbD_immIOf _ _ (by omega), if_pos hk, BitVec.getLsbD_extractLsb', decide_eq_true hk,
      Bool.true_and]

/-- A word is the format I word of its own fields. -/
theorem encodeI_fields (bits : Word) :
    encodeI (immIOf bits) (rs1Of bits) (funct3Of bits) (rdOf bits) (opcodeOf bits) = bits := by
  apply BitVec.eq_of_getLsbD_eq
  intro k hk
  rw [getLsbD_encodeI, extract_immIOf]
  simp only [rs1Of, funct3Of, rdOf, opcodeOf, BitVec.getLsbD_extractLsb']
  grind

/-- The high bits of the U-type immediate are the field it was read from. -/
theorem extract_immUOf (bits : Word) : (immUOf bits).extractLsb' 12 20 = bits.extractLsb' 12 20 :=
  extract_eq fun k hk => by
    rw [immUOf_eq, BitVec.getLsbD_and, BitVec.getLsbD_extractLsb', decide_eq_true hk, Bool.true_and]
    interval_cases k <;> simp

/-- A word is the format U word of its own fields. -/
theorem encodeU_fields (bits : Word) : encodeU (immUOf bits) (rdOf bits) (opcodeOf bits) = bits := by
  apply BitVec.eq_of_getLsbD_eq
  intro k hk
  rw [getLsbD_encodeU, extract_immUOf]
  simp only [rdOf, opcodeOf, BitVec.getLsbD_extractLsb']
  grind

theorem immIFits_immIOf (bits : Word) : immIFits (immIOf bits) = true := by
  rw [immIFits_iff, extract_immIOf, immIOf]

theorem immUFits_immUOf (bits : Word) : immUFits (immUOf bits) = true := by
  rw [immUFits, beq_iff_eq]
  exact extract_eq fun k hk => by
    rw [immUOf_eq, BitVec.getLsbD_and]
    interval_cases k <;> simp

/-- A decoded instruction has an encoding: its immediates are those its format reads. -/
theorem wf_of_decode {bits : Word} {i : Instr} (h : decode bits = .ok i) : i.wf = true := by
  obtain ⟨hI, hU, -⟩ := immediatesOf_decode h
  refine (instr_wf_iff i).2 ⟨fun imm e => ?_, fun imm e => ?_⟩
  · rw [hI imm e]
    exact immIFits_immIOf bits
  · rw [hU imm e]
    exact immUFits_immUOf bits

/-- A format R word from its fields, its key fields named. -/
theorem encodeR_eq {bits : Word} {f7 : BitVec 7} {f3 : BitVec 3} {op : BitVec 7} (hop : opcodeOf bits = op)
    (hf3 : funct3Of bits = f3) (hf7 : funct7Of bits = f7) :
    encodeR f7 (rs2Of bits) (rs1Of bits) f3 (rdOf bits) op = bits := by
  subst hop hf3 hf7
  exact encodeR_fields bits

/-- A format I word from its fields, its key fields named. -/
theorem encodeI_eq {bits : Word} {f3 : BitVec 3} {op : BitVec 7} (hop : opcodeOf bits = op)
    (hf3 : funct3Of bits = f3) : encodeI (immIOf bits) (rs1Of bits) f3 (rdOf bits) op = bits := by
  subst hop hf3
  exact encodeI_fields bits

/-- R70 and R71: a case per funct3; the cases 7 and 8 are the shifts, which funct7 divides further. -/
theorem encode_of_decodeOpImm {bits : Word} {i : Instr} (hop : opcodeOf bits = 0b0010011#7)
    (h : decodeOpImm bits = some i) : encode i = bits := by
  unfold decodeOpImm at h
  split at h
  case h_7 hf3 | h_8 hf3 => split at h <;> cases h <;> exact encodeR_eq hop hf3 ‹_›
  all_goals cases h <;> exact encodeI_eq hop ‹_›

/-- R72: a case per pair of funct7 and funct3. -/
theorem encode_of_decodeOp {bits : Word} {i : Instr} (hop : opcodeOf bits = 0b0110011#7)
    (h : decodeOp bits = some i) : encode i = bits := by
  unfold decodeOp at h
  split at h <;> cases h <;> exact encodeR_eq hop ‹_› ‹_›

/-- The bits that a FENCE does not ignore are those of its opcode and funct3. -/
theorem eq_and_maskI_of_clear {bits : Word} (h : bits &&& 0xFFFF8F80#32 = 0#32) :
    bits = bits &&& 0x0000707F#32 := by
  have hsplit : bits = bits &&& 0xFFFF8F80#32 ||| bits &&& 0x0000707F#32 := by
    rw [← BitVec.and_or_distrib_left]
    exact (BitVec.and_allOnes).symm
  rw [h, BitVec.zero_or] at hsplit
  exact hsplit

/-- A decoded word is the encoding, by its major opcode: of a FENCE, only when no ignored bit is set. -/
theorem encode_of_decode {bits : Word} {i : Instr} (h : decode bits = .ok i)
    (hbits : i ≠ .fence ∨ bits &&& 0xFFFF8F80#32 = 0#32) : encode i = bits := by
  rcases decode_cases h with ⟨hop, rfl⟩ | ⟨hop, rfl⟩ | ⟨hop, himm⟩ | ⟨hop, hreg⟩ | ⟨hop, hf3, rfl⟩ | ⟨hop, hf3, rfl⟩
  · rw [encode, ← hop, encodeU_fields]
  · rw [encode, ← hop, encodeU_fields]
  · exact encode_of_decodeOpImm hop himm
  · exact encode_of_decodeOp hop hreg
  · exact encodeI_eq hop hf3
  · rw [eq_and_maskI_of_clear (hbits.resolve_left (absurd rfl)), and_maskI, hop, hf3]
    rfl

/-- Settles O26: the word is that of its fields; two words of one instruction are both its encoding. -/
theorem encodeOfDecodeIsTheWord : Obligations.EncodeOfDecodeIsTheWord :=
  ⟨fun _ _ h => ⟨wf_of_decode h, encode_of_decode h⟩,
    fun _ _ _ hb hc hi => (encode_of_decode hb (.inl hi)).symm.trans (encode_of_decode hc (.inl hi))⟩

/-! ### The register fields -/

/-- Every register an instruction names is read from its field (R62). -/
def RegistersOf (bits : Word) (i : Instr) : Prop :=
  (∀ rd, i.rd? = some rd → rd = rdOf bits) ∧
  (∀ rs1, i.rs1? = some rs1 → rs1 = rs1Of bits) ∧
  (∀ rs2, i.rs2? = some rs2 → rs2 = rs2Of bits)

/-- R70 and R71: a case per funct3; the cases 7 and 8 are the shifts, which funct7 divides further. -/
theorem registersOf_decodeOpImm {bits : Word} {i : Instr} (h : decodeOpImm bits = some i) : RegistersOf bits i := by
  unfold decodeOpImm at h
  split at h
  case h_7 | h_8 => split at h <;> cases h <;> simp [RegistersOf, Instr.rd?, Instr.rs1?, Instr.rs2?]
  all_goals cases h <;> simp [RegistersOf, Instr.rd?, Instr.rs1?, Instr.rs2?]

/-- R72: rd, rs1 and rs2 in every case. -/
theorem registersOf_decodeOp {bits : Word} {i : Instr} (h : decodeOp bits = some i) : RegistersOf bits i := by
  unfold decodeOp at h
  split at h <;> cases h <;> simp [RegistersOf, Instr.rd?, Instr.rs1?, Instr.rs2?]

/-- The six major opcodes: LUI, AUIPC, the two families above, JALR and FENCE. -/
theorem registersOf_decode {bits : Word} {i : Instr} (h : decode bits = .ok i) : RegistersOf bits i := by
  rcases decode_cases h with ⟨-, rfl⟩ | ⟨-, rfl⟩ | ⟨-, himm⟩ | ⟨-, hreg⟩ | ⟨-, -, rfl⟩ | ⟨-, -, rfl⟩
  · simp [RegistersOf, Instr.rd?, Instr.rs1?, Instr.rs2?]
  · simp [RegistersOf, Instr.rd?, Instr.rs1?, Instr.rs2?]
  · exact registersOf_decodeOpImm himm
  · exact registersOf_decodeOp hreg
  · simp [RegistersOf, Instr.rd?, Instr.rs1?, Instr.rs2?]
  · simp [RegistersOf, Instr.rd?, Instr.rs1?, Instr.rs2?]

/-- A field as a number: the word without the bits below it, modulo the field's width. -/
theorem toNat_field (bits : Word) (start len : Nat) :
    (bits.extractLsb' start len).toNat = bits.toNat / 2 ^ start % 2 ^ len := by
  rw [BitVec.extractLsb'_toNat, Nat.shiftRight_eq_div_pow]

/-- Settles O24: each register is read from its field, whose value is known. -/
theorem registerFieldsComeFromTheirBits : Obligations.RegisterFieldsComeFromTheirBits := by
  intro bits i h
  obtain ⟨hrd, hrs1, hrs2⟩ := registersOf_decode h
  refine ⟨fun rd e => ?_, fun rs1 e => ?_, fun rs2 e => ?_⟩
  · rw [hrd rd e, rdOf, toNat_field]
  · rw [hrs1 rs1 e, rs1Of, toNat_field]
  · rw [hrs2 rs2 e, rs2Of, toNat_field]

/-! ### The decoder and the opcode map (R69 to R75) -/

section KeyFields

variable {bits v : Word}

/-- A row of R71 and R72 fixes the opcode, funct3 and funct7. -/
theorem fields_of_maskR (h : bits &&& 0xFE00707F#32 = v) :
    opcodeOf bits = v.extractLsb' 0 7 ∧ funct3Of bits = v.extractLsb' 12 3 ∧
      funct7Of bits = v.extractLsb' 25 7 := by
  rw [and_maskR] at h
  subst h
  exact ⟨(opcodeOf_encodeR ..).symm, (funct3Of_encodeR ..).symm, (funct7Of_encodeR ..).symm⟩

/-- A row of R70, R73 and R74 fixes the opcode and funct3. -/
theorem fields_of_maskI (h : bits &&& 0x0000707F#32 = v) :
    opcodeOf bits = v.extractLsb' 0 7 ∧ funct3Of bits = v.extractLsb' 12 3 := by
  rw [and_maskI] at h
  subst h
  exact ⟨(opcodeOf_encodeR ..).symm, (funct3Of_encodeR ..).symm⟩

/-- A row of R69 fixes the opcode. -/
theorem opcodeOf_of_maskU (h : bits &&& 0x0000007F#32 = v) : opcodeOf bits = v.extractLsb' 0 7 := by
  rw [and_maskU] at h
  subst h
  exact (opcodeOf_encodeR ..).symm

end KeyFields

/-- The mnemonic of the word's instruction, if it has one. -/
def mnemonic? (bits : Word) : Option String := (decode? bits).map Instr.mnemonic

theorem mnemonic?_eq_some_iff (bits : Word) (m : String) :
    mnemonic? bits = some m ↔ ∃ i, decode bits = .ok i ∧ i.mnemonic = m := by
  rw [mnemonic?, Option.map_eq_some_iff]
  exact exists_congr fun i => and_congr_left' ⟨decode_of_decode?, decode_ok⟩

theorem mnemonic?_of_rowsOther {bits : Word} :
    ∀ row ∈ opcodeRowsOther, bits &&& row.mask = row.value → mnemonic? bits = some row.mnemonic := by
  simp only [opcodeRowsOther, List.forall_mem_cons]
  refine ⟨fun h => ?_, fun h => ?_, fun h => ?_, fun h => ?_, by simp⟩
  · simp [mnemonic?, decode?, opcodeOf_of_maskU h, Instr.mnemonic]
  · simp [mnemonic?, decode?, opcodeOf_of_maskU h, Instr.mnemonic]
  · simp [mnemonic?, decode?, decodeJalr, fields_of_maskI h, Instr.mnemonic]
  · simp [mnemonic?, decode?, decodeFence, fields_of_maskI h, Instr.mnemonic]

/-- The rows 7 to 9, the shifts, also fix funct7. -/
theorem mnemonic?_of_rowsImm {bits : Word} :
    ∀ row ∈ opcodeRowsImm, bits &&& row.mask = row.value → mnemonic? bits = some row.mnemonic := by
  simp only [opcodeRowsImm, List.forall_mem_cons]
  refine ⟨fun h => ?_, fun h => ?_, fun h => ?_, fun h => ?_, fun h => ?_, fun h => ?_, fun h => ?_, fun h => ?_,
    fun h => ?_, by simp⟩
  case refine_7 | refine_8 | refine_9 => simp [mnemonic?, decode?, decodeOpImm, fields_of_maskR h, Instr.mnemonic]
  all_goals simp [mnemonic?, decode?, decodeOpImm, fields_of_maskI h, Instr.mnemonic]

theorem mnemonic?_of_rowsReg {bits : Word} :
    ∀ row ∈ opcodeRowsReg, bits &&& row.mask = row.value → mnemonic? bits = some row.mnemonic := by
  simp only [opcodeRowsReg, List.forall_mem_cons]
  refine ⟨fun h => ?_, fun h => ?_, fun h => ?_, fun h => ?_, fun h => ?_, fun h => ?_, fun h => ?_, fun h => ?_,
    fun h => ?_, fun h => ?_, by simp⟩
  all_goals simp [mnemonic?, decode?, decodeOp, fields_of_maskR h, Instr.mnemonic]

/-- A word that a row covers decodes to the row's mnemonic. -/
theorem mnemonic?_of_covers {bits : Word} {row : Row} (hrow : row ∈ opcodeTable)
    (h : bits &&& row.mask = row.value) : mnemonic? bits = some row.mnemonic := by
  rw [opcodeTable, List.mem_append, List.mem_append] at hrow
  rcases hrow with (hrow | hrow) | hrow
  · exact mnemonic?_of_rowsOther row hrow h
  · exact mnemonic?_of_rowsImm row hrow h
  · exact mnemonic?_of_rowsReg row hrow h

/-- Every instruction's own word is in a row of its mnemonic. -/
theorem encodedInRow : ∀ i : Instr, Laws.EncodedInRow.Statement i
  | .lui .. => Laws.EncodedInRow.lui ..
  | .auipc .. => Laws.EncodedInRow.auipc ..
  | .addi .. => Laws.EncodedInRow.addi ..
  | .slti .. => Laws.EncodedInRow.slti ..
  | .sltiu .. => Laws.EncodedInRow.sltiu ..
  | .xori .. => Laws.EncodedInRow.xori ..
  | .ori .. => Laws.EncodedInRow.ori ..
  | .andi .. => Laws.EncodedInRow.andi ..
  | .slli .. => Laws.EncodedInRow.slli ..
  | .srli .. => Laws.EncodedInRow.srli ..
  | .srai .. => Laws.EncodedInRow.srai ..
  | .add .. => Laws.EncodedInRow.add ..
  | .sub .. => Laws.EncodedInRow.sub ..
  | .sll .. => Laws.EncodedInRow.sll ..
  | .slt .. => Laws.EncodedInRow.slt ..
  | .sltu .. => Laws.EncodedInRow.sltu ..
  | .xor .. => Laws.EncodedInRow.xor ..
  | .srl .. => Laws.EncodedInRow.srl ..
  | .sra .. => Laws.EncodedInRow.sra ..
  | .or .. => Laws.EncodedInRow.or ..
  | .and .. => Laws.EncodedInRow.and ..
  | .jalr .. => Laws.EncodedInRow.jalr ..
  | .fence => Laws.EncodedInRow.fence

/-- A FENCE's word may differ from its encoding, but not under the mask of its row. -/
theorem and_maskI_of_decode_fence {bits : Word} (h : decode bits = .ok .fence) :
    bits &&& 0x0000707F#32 = 0x0000000F#32 := by
  rcases decode_cases h with ⟨-, e⟩ | ⟨-, e⟩ | ⟨hop, e⟩ | ⟨hop, e⟩ | ⟨-, -, e⟩ | ⟨hop, hf3, -⟩
  · cases e
  · cases e
  · exact absurd hop (by rw [← encode_of_decodeOpImm hop e]; decide)
  · exact absurd hop (by rw [← encode_of_decodeOp hop e]; decide)
  · cases e
  · rw [and_maskI, hop, hf3]
    rfl

/-- A word that decodes is covered by a row of its instruction's mnemonic: it is the instruction's own word, but for a
FENCE. -/
theorem covered_of_decode {bits : Word} {i : Instr} (h : decode bits = .ok i) :
    ∃ row ∈ opcodeTable, row.mnemonic = i.mnemonic ∧ bits &&& row.mask = row.value := by
  by_cases hi : i = .fence
  · subst hi
    exact ⟨⟨"FENCE", 0x0000707F#32, 0x0000000F#32⟩, by decide, rfl, and_maskI_of_decode_fence h⟩
  · obtain ⟨row, hrow, hname, hcov⟩ := encodedInRow i
    rw [encode_of_decode h (.inl hi), Row.covers, beq_iff_eq] at hcov
    exact ⟨row, hrow, hname, hcov⟩

/-- A row is known by its mnemonic. -/
theorem row_eq_of_mnemonic : ∀ r ∈ opcodeTable, ∀ q ∈ opcodeTable, r.mnemonic = q.mnemonic → r = q := by decide

/-- A word that no row covers is refused (R75). -/
theorem decode_of_uncovered {bits : Word} (h : ∀ row ∈ opcodeTable, bits &&& row.mask ≠ row.value) :
    decode bits = .error (.unsupported bits) := by
  cases hd : decode bits with
  | ok i =>
    obtain ⟨row, hrow, -, hcov⟩ := covered_of_decode hd
    exact absurd hcov (h row hrow)
  | error e => rw [decode_error hd]

/-- Settles O27: a covered word by its row's family; a decoded word is covered by a row of its mnemonic, which is the row
in question. -/
theorem decoderFollowsTheOpcodeMap : Obligations.DecoderFollowsTheOpcodeMap := by
  refine fun bits => ⟨fun row hrow => ⟨fun h => ?_, fun ⟨i, hd, hname⟩ => ?_⟩, decode_of_uncovered⟩
  · exact (mnemonic?_eq_some_iff bits _).1 (mnemonic?_of_covers hrow h)
  · obtain ⟨row', hrow', hname', hcov⟩ := covered_of_decode hd
    obtain rfl := row_eq_of_mnemonic row' hrow' row hrow (hname'.trans hname)
    exact hcov

/-- Settles O29: ten words, each decoded by evaluation. -/
theorem listedWordsDecodeAsTheSpecSays : Obligations.ListedWordsDecodeAsTheSpecSays := by
  unfold Obligations.ListedWordsDecodeAsTheSpecSays
  decide

end Sys2Proof

namespace Sys2Proof

/-! ## The instructions

An instruction with a destination retires one value and perhaps a target, both functions of the pc and its sources
(R90, R92, R103); every statement about instructions follows from these two functions. -/

/-- The value an instruction writes to its destination, read in the state it runs in (R120 to R170); FENCE has none. -/
def Instr.result (s : Machine.State) : Instr → Word
  | .lui _ imm => Machine.alu .add 0#32 imm
  | .auipc _ imm => Machine.alu .add s.pc imm
  | .addi _ rs1 imm => Machine.alu .add (s.readReg rs1) imm
  | .slti _ rs1 imm => Machine.alu .slt (s.readReg rs1) imm
  | .sltiu _ rs1 imm => Machine.alu .sltu (s.readReg rs1) imm
  | .xori _ rs1 imm => Machine.alu .xor (s.readReg rs1) imm
  | .ori _ rs1 imm => Machine.alu .or (s.readReg rs1) imm
  | .andi _ rs1 imm => Machine.alu .and (s.readReg rs1) imm
  | .slli _ rs1 shamt => Machine.alu .sll (s.readReg rs1) (shamt.zeroExtend 32)
  | .srli _ rs1 shamt => Machine.alu .srl (s.readReg rs1) (shamt.zeroExtend 32)
  | .srai _ rs1 shamt => Machine.alu .sra (s.readReg rs1) (shamt.zeroExtend 32)
  | .add _ rs1 rs2 => Machine.alu .add (s.readReg rs1) (s.readReg rs2)
  | .sub _ rs1 rs2 => Machine.alu .sub (s.readReg rs1) (s.readReg rs2)
  | .sll _ rs1 rs2 => Machine.alu .sll (s.readReg rs1) (s.readReg rs2)
  | .slt _ rs1 rs2 => Machine.alu .slt (s.readReg rs1) (s.readReg rs2)
  | .sltu _ rs1 rs2 => Machine.alu .sltu (s.readReg rs1) (s.readReg rs2)
  | .xor _ rs1 rs2 => Machine.alu .xor (s.readReg rs1) (s.readReg rs2)
  | .srl _ rs1 rs2 => Machine.alu .srl (s.readReg rs1) (s.readReg rs2)
  | .sra _ rs1 rs2 => Machine.alu .sra (s.readReg rs1) (s.readReg rs2)
  | .or _ rs1 rs2 => Machine.alu .or (s.readReg rs1) (s.readReg rs2)
  | .and _ rs1 rs2 => Machine.alu .and (s.readReg rs1) (s.readReg rs2)
  | .jalr _ _ _ => Machine.pcPlus4 s.pc
  | .fence => 0#32

/-- The target of an instruction that jumps: JALR alone (R170, R171). -/
def Instr.target? (s : Machine.State) : Instr → Option Word
  | .jalr _ rs1 imm => some (Machine.jumpTarget (s.readReg rs1) imm)
  | _ => none

end Sys2Proof

namespace Sys2Proof.Machine

/-- An instruction with a destination retires its result and its target (R90, R103). -/
theorem exec_eq_retire {i : Instr} {rd : RegIdx} (h : i.rd? = some rd) (s : State) :
    exec i s = .next (s.retire rd (i.result s) (i.target? s)) := by
  cases i <;> cases h <;> rfl

/-- FENCE, the one instruction without a destination, only commits (R180). -/
theorem eq_fence_of_rd?_none {i : Instr} (h : i.rd? = none) : i = .fence := by
  cases i
  case fence => rfl
  all_goals cases h

theorem exec_fence (s : State) : exec .fence s = .next (s.commit none) := rfl

theorem target?_eq_none {i : Instr} (h : ∀ rd rs1 imm, i ≠ .jalr rd rs1 imm) (s : State) : i.target? s = none := by
  cases i
  case jalr => exact absurd rfl (h _ _ _)
  all_goals rfl

/-- Every instruction answers a state whose pc is the target, or else 4 further on (R95). -/
theorem exec_next_pc (i : Instr) (s : State) :
    ∃ t, exec i s = .next t ∧ t.latch = s.latch ∧ t.pc = nextPc s.pc (i.target? s) := by
  cases h : i.rd? with
  | none =>
    obtain rfl := eq_fence_of_rd?_none h
    exact ⟨_, exec_fence s, rfl, rfl⟩
  | some rd => exact ⟨_, exec_eq_retire h s, by simp, by simp⟩

/-! ### Completion, result and frame -/

theorem advances_of_pc {s t : State} (h : t.pc = pcPlus4 s.pc) : Advances s t := by
  rw [Advances, h, pcPlus4, BitVec.toNat_add]
  rfl

/-- An instruction that does not jump completes: it writes its result, which has the property `P`, and advances. -/
theorem completes {i : Instr} {rd : RegIdx} {s : State} {P : Word → Prop} (hrd : i.rd? = some rd)
    (ht : i.target? s = none) (hP : P (i.result s)) :
    ∃ t v, exec i s = .next t ∧ P v ∧ WritesOnly rd v s t ∧ Advances s t :=
  ⟨_, _, exec_eq_retire hrd s, hP, writesOnly_retire .., advances_of_pc (by simp [ht])⟩

/-- Settles O9: LUI adds to 0, AUIPC to the pc. -/
theorem upperImmediatesComplete : Obligations.UpperImmediatesComplete := by
  intro rd imm s
  obtain ⟨t, v, ht, rfl, hframe⟩ :
      ∃ t v, exec (.lui rd imm) s = .next t ∧ v = imm ∧ WritesOnly rd v s t ∧ Advances s t :=
    completes rfl rfl (BitVec.zero_add imm)
  exact ⟨⟨t, ht, hframe⟩, completes rfl rfl (toNat_alu_add _ _)⟩

/-- Settles O10: the adder's sum. -/
theorem addImmediateCompletes : Obligations.AddImmediateCompletes :=
  fun _ _ _ _ => completes rfl rfl (toNat_alu_add _ _)

theorem toNat_alu_slt (a b : Word) : (alu .slt a b).toNat = if a.toInt < b.toInt then 1 else 0 := by
  rw [alu_slt]
  split <;> rfl

theorem toNat_alu_sltu (a b : Word) : (alu .sltu a b).toNat = if a.toNat < b.toNat then 1 else 0 := by
  rw [alu_sltu]
  split <;> rfl

/-- Settles O11: both comparisons answer 1 or 0. -/
theorem setLessThanImmediatesComplete : Obligations.SetLessThanImmediatesComplete :=
  fun _ _ _ _ => ⟨completes rfl rfl (toNat_alu_slt _ _), completes rfl rfl (toNat_alu_sltu _ _)⟩

/-- Settles O12: each bit from the ALU's operation on it. -/
theorem bitwiseImmediatesComplete : Obligations.BitwiseImmediatesComplete :=
  fun _ _ _ _ => ⟨completes rfl rfl fun k _ => getLsbD_alu_xor _ _ k,
    completes rfl rfl fun k _ => getLsbD_alu_or _ _ k, completes rfl rfl fun k _ => getLsbD_alu_and _ _ k⟩

/-- An immediate shift's amount survives the ALU's masking (R66, R100). -/
theorem toNat_shamt_mod (n : Shamt) : (n.zeroExtend 32).toNat % 32 = n.toNat := by
  rw [← shiftAmount_eq, shiftAmount_shamt]

/-- Settles O13: the zero-extended amount is below 32, so the shifter uses all of it. -/
theorem immediateShiftsComplete : Obligations.ImmediateShiftsComplete := by
  intro rd rs1 shamt s
  rw [← toNat_shamt_mod shamt]
  exact ⟨completes rfl rfl (toNat_alu_sll _ _), completes rfl rfl (toNat_alu_srl _ _),
    completes rfl rfl (toInt_alu_sra _ _)⟩

/-- Settles O14: the adder, with rs1 on the left. -/
theorem addAndSubComplete : Obligations.AddAndSubComplete :=
  fun _ _ _ _ => ⟨completes rfl rfl (toNat_alu_add _ _), completes rfl rfl (toNat_alu_sub _ _)⟩

/-- Settles O15: the shifter takes its amount modulo 32. -/
theorem registerShiftsComplete : Obligations.RegisterShiftsComplete :=
  fun _ _ _ _ => ⟨completes rfl rfl (toNat_alu_sll _ _), completes rfl rfl (toNat_alu_srl _ _),
    completes rfl rfl (toInt_alu_sra _ _)⟩

/-- Settles O16: both comparisons, on two registers. -/
theorem setLessThanComplete : Obligations.SetLessThanComplete :=
  fun _ _ _ _ => ⟨completes rfl rfl (toNat_alu_slt _ _), completes rfl rfl (toNat_alu_sltu _ _)⟩

/-- Settles O17: each bit from the ALU's operation on it. -/
theorem bitwiseRegisterOpsComplete : Obligations.BitwiseRegisterOpsComplete :=
  fun _ _ _ _ => ⟨completes rfl rfl fun k _ => getLsbD_alu_xor _ _ k,
    completes rfl rfl fun k _ => getLsbD_alu_or _ _ k, completes rfl rfl fun k _ => getLsbD_alu_and _ _ k⟩

/-- Settles O18: the link is `pc_plus4`, the target the sum with bit 0 cleared. -/
theorem jalrCompletes : Obligations.JalrCompletes :=
  fun _ _ _ s => ⟨_, _, exec_eq_retire rfl s, BitVec.toNat_add _ _, writesOnly_retire .., by
    rw [retire_pc, Instr.target?, nextPc_some, toNat_jumpTarget]⟩

/-- Settles O19: a commit touches the pc alone. -/
theorem fenceCompletes : Obligations.FenceCompletes :=
  fun s => ⟨_, exec_fence s, advances_of_pc rfl, fun _ => rfl, fun _ => rfl, rfl, rfl⟩

/-! ### The destination -/

/-- Retiring is committing and one register write, in either order. -/
theorem retire_eq_writeReg_commit (s : State) (rd : RegIdx) (v : Word) (target : Option Word) :
    s.retire rd v target = (s.commit target).writeReg rd v := by
  unfold State.retire State.writeReg
  split <;> rfl

theorem rd?_withRd {i : Instr} (h : i.rd?.isSome = true) (rd : RegIdx) : (i.withRd rd).rd? = some rd := by
  cases i
  case fence => cases h
  all_goals rfl

/-- Neither the result nor the target depends on which register is the destination (R92, D6). -/
theorem result_withRd (i : Instr) (rd : RegIdx) (s : State) : (i.withRd rd).result s = i.result s := by
  cases i <;> rfl

theorem target?_withRd (i : Instr) (rd : RegIdx) (s : State) : (i.withRd rd).target? s = i.target? s := by
  cases i <;> rfl

theorem exec_withRd {i : Instr} (h : i.rd?.isSome = true) (rd : RegIdx) (s : State) :
    exec (i.withRd rd) s = .next (s.retire rd (i.result s) (i.target? s)) := by
  rw [exec_eq_retire (rd?_withRd h rd), result_withRd, target?_withRd]

theorem sameRest_commit (s : State) (target : Option Word) : SameRest s (s.commit target) :=
  ⟨fun _ => memRead_congr rfl rfl _ _, rfl, rfl⟩

/-- Settles O2: with x0 the instruction only commits; another destination adds its register write. -/
theorem everyDestinationWriteGoesThroughTheRegisterFile :
    Obligations.EveryDestinationWriteGoesThroughTheRegisterFile := by
  refine ⟨writeReg_zero, fun s i j v hi => ?_, fun i s h =>
    ⟨s.commit (i.target? s), i.result s, ?_, fun _ => rfl, sameRest_commit s _, fun rd => ?_⟩⟩
  · split
    · subst j
      exact readReg_writeReg_same s i v hi
    · exact readReg_writeReg_other s i j v ‹_›
  · rw [exec_withRd h, retire_eq_writeReg_commit, writeReg_zero]
  · rw [exec_withRd h, retire_eq_writeReg_commit]

/-- Settles O21: the destination is the only register an instruction retires to, and its result is the same for every
destination. -/
theorem atMostOneRegisterAndThePcChange : Obligations.AtMostOneRegisterAndThePcChange := by
  intro i s
  cases h : i.rd? with
  | none =>
    obtain rfl := eq_fence_of_rd?_none h
    exact ⟨_, exec_fence s, sameRest_commit s _, fun _ _ => rfl, nofun, nofun⟩
  | some rd =>
    have hsome : i.rd?.isSome = true := by rw [h]; rfl
    obtain ⟨-, hother, hrest⟩ := writesOnly_retire s rd (i.result s) (i.target? s)
    refine ⟨_, exec_eq_retire h s, hrest, nofun, fun e => ?_, fun q e => ?_⟩
    · cases e
      rw [retire_eq_writeReg_commit, writeReg_zero]
      exact fun _ => rfl
    · cases e
      refine ⟨hother, fun rd' hrd hrd' => ⟨_, exec_withRd hsome rd' s, ?_, ?_⟩⟩
      · simp [readReg_retire, hrd, hrd']
      · obtain ⟨-, hother', -⟩ := writesOnly_retire s rd' (i.result s) (i.target? s)
        exact hother'

/-! ### What an instruction reads -/

/-- The result is a function of the pc and the named sources. -/
theorem result_congr {i : Instr} {s u : State} (hpc : s.pc = u.pc)
    (h1 : ∀ r, i.rs1? = some r → s.readReg r = u.readReg r)
    (h2 : ∀ r, i.rs2? = some r → s.readReg r = u.readReg r) : i.result s = i.result u := by
  cases i
  case lui | fence => rfl
  case auipc | jalr => simp only [Instr.result, hpc]
  case add | sub | sll | slt | sltu | xor | srl | sra | or | and =>
    simp only [Instr.result, h1 _ rfl, h2 _ rfl]
  all_goals simp only [Instr.result, h1 _ rfl]

/-- Only JALR has a target, which is a function of its source. -/
theorem target?_congr {i : Instr} {s u : State} (h1 : ∀ r, i.rs1? = some r → s.readReg r = u.readReg r) :
    i.target? s = i.target? u := by
  cases i
  case jalr => simp only [Instr.target?, h1 _ rfl]
  all_goals rfl

/-- Settles O22: result and target are functions of the pc and the named sources. -/
theorem resultDependsOnNamedSourcesOnly : Obligations.ResultDependsOnNamedSourcesOnly := by
  intro i s u hpc h1 h2
  have htarget := target?_congr h1
  cases h : i.rd? with
  | none =>
    obtain rfl := eq_fence_of_rd?_none h
    exact ⟨_, _, exec_fence s, exec_fence u, by simp [hpc], nofun⟩
  | some rd =>
    refine ⟨_, _, exec_eq_retire h s, exec_eq_retire h u, by simp [hpc, htarget], fun q e => ?_⟩
    cases e
    simp [readReg_retire, result_congr hpc h1 h2]

/-- Of the instructions that do not jump, AUIPC alone has a result that depends on the pc (R15). -/
theorem result_with_pc {i : Instr} (hauipc : ∀ rd imm, i ≠ .auipc rd imm)
    (hjalr : ∀ rd rs1 imm, i ≠ .jalr rd rs1 imm) (s : State) (p : Word) : i.result { s with pc := p } = i.result s := by
  cases i
  case auipc => exact absurd rfl (hauipc _ _)
  case jalr => exact absurd rfl (hjalr _ _ _)
  all_goals rfl

/-- An instruction that does not jump retires the pc 4 further on (R15). -/
theorem retire_pc_of_no_jump {i : Instr} (h : ∀ rd rs1 imm, i ≠ .jalr rd rs1 imm) (s : State) (rd : RegIdx) (v : Word) :
    (s.retire rd v (i.target? s)).pc = s.pc + 4#32 := by
  rw [retire_pc, target?_eq_none h, nextPc_none, pcPlus4]

/-- Settles O3: without a target the next pc is 4 further on, and the result without the pc. -/
theorem onlyJalrOverridesTheNextPc : Obligations.OnlyJalrOverridesTheNextPc := by
  intro i s hjalr
  cases h : i.rd? with
  | none =>
    obtain rfl := eq_fence_of_rd?_none h
    exact ⟨_, exec_fence s, rfl, fun _ p => ⟨_, exec_fence _, rfl, fun _ => rfl⟩⟩
  | some rd =>
    refine ⟨_, exec_eq_retire h s, retire_pc_of_no_jump hjalr .., fun hauipc p =>
      ⟨_, exec_eq_retire h _, retire_pc_of_no_jump hjalr .., fun r => ?_⟩⟩
    rw [readReg_retire, readReg_retire, result_with_pc hauipc hjalr]
    rfl

end Sys2Proof.Machine

namespace Sys2Proof.Machine

/-! ## The step -/

theorem halted_eq_false {s : State} : s.halted = false ↔ s.latch = none := by
  rw [State.halted, Option.isSome_eq_false_iff, Option.isNone_iff_eq_none]

/-- An outcome holds one state. -/
theorem next_unique {o : Host.Outcome State Fault Refusal} {t u : State} (ht : o = .next t) (hu : o = .next u) :
    t = u :=
  Host.Outcome.next.inj (ht.symm.trans hu)

/-! ### One rule per outcome of a step (R90) -/

theorem step_halted {s : State} {rec : FaultRec} (h : s.latch = some rec) : step s = .next s := by
  simp [step, State.halted, h]

theorem step_fetchFault {s : State} {f : Fault} (h : s.latch = none) (hf : fetch s = .error f) :
    step s = .next { s with latch := some (f.record s.pc) } := by
  simp [step, State.halted, h, hf, takeFault_running]

theorem step_decodeFault {s : State} {bits : Word} {e : DecodeError} (h : s.latch = none) (hf : fetch s = .ok bits)
    (hd : decode bits = .error e) :
    step s = .next { s with latch := some ((Fault.decodeFault bits).record s.pc) } := by
  simp [step, State.halted, h, hf, hd, takeFault_running]

/-- Settles O40: the last case of the step. -/
theorem stepRunsTheDecodedInstruction : Obligations.StepRunsTheDecodedInstruction := by
  intro s bits i h hf hd
  simp [step, State.halted, h, hf, hd]

/-- The step of a running machine: its fault, if it has one, goes to the latch; else the fetched instruction runs. -/
theorem step_running {s : State} (h : s.latch = none) :
    (∃ f, stepFault? s = some f ∧ step s = .next { s with latch := some (f.record s.pc) }) ∨
      (stepFault? s = none ∧ ∃ i, Fetches s i ∧ step s = exec i s) := by
  cases hf : fetch s with
  | error f => exact .inl ⟨f, by simp [stepFault?, hf], step_fetchFault h hf⟩
  | ok bits =>
    cases hd : decode bits with
    | error e => exact .inl ⟨_, by simp [stepFault?, hf, hd], step_decodeFault h hf hd⟩
    | ok i =>
      exact .inr
        ⟨by simp [stepFault?, hf, hd], i, ⟨bits, hf, hd⟩, stepRunsTheDecodedInstruction s bits i h hf hd⟩

/-- The fault of a step is decided by the configuration, the bytes and the pc. -/
theorem stepFault?_congr {s t : State} (hc : t.cfg = s.cfg) (hm : t.mem = s.mem) (hp : t.pc = s.pc) :
    stepFault? t = stepFault? s := by
  rw [stepFault?, stepFault?, fetch_congr hc hm hp]

theorem stepFault?_eq_none_iff (s : State) :
    stepFault? s = none ↔ ∃ bits i, fetch s = .ok bits ∧ decode bits = .ok i := by
  unfold stepFault?
  cases fetch s with
  | error f => simp
  | ok bits => cases hd : decode bits <;> simp [hd]

/-- Settles O43: the decoder refuses a word that no row covers. -/
theorem decodeFaultOnlySetsTheLatch : Obligations.DecodeFaultOnlySetsTheLatch :=
  fun _ _ h hf hout => step_decodeFault h hf (decode_of_uncovered hout)

/-- Settles O44: what the step of a halted and of a running machine leaves alone. -/
theorem stepHaltsExactlyOnFetchOrDecodeFault : Obligations.StepHaltsExactlyOnFetchOrDecodeFault := by
  intro s
  obtain ⟨t, ht, hmem, hcfg⟩ := step_next s
  refine ⟨t, ht, fun a => memRead_congr hcfg hmem a .byte, hcfg, fun h => ?_⟩
  rw [← stepFault?_eq_none_iff]
  rcases step_running h with ⟨f, hfault, hstep⟩ | ⟨hnone, i, -, hstep⟩
  · obtain rfl : { s with latch := some (f.record s.pc) } = t := next_unique hstep ht
    exact ⟨by simp [hfault], fun _ => ⟨fun _ => rfl, rfl⟩⟩
  · obtain ⟨u, hu, -, hlatch, -⟩ := exec_next i s
    obtain rfl : u = t := next_unique (hstep.trans hu) ht
    exact ⟨by simp [hnone, hlatch, h], by simp [hlatch, h]⟩

/-- Settles O48: a halted machine stays; a fault is latched at the state that explains it; an instruction keeps the
bytes, the configuration and the clear latch. -/
theorem stepKeepsTheInvariant : Obligations.StepKeepsTheInvariant := by
  rintro s t ⟨hwf, hmem, hcells, hlatch⟩ ht
  cases h : s.latch with
  | some rec =>
    obtain rfl : s = t := next_unique (step_halted h) ht
    exact ⟨hwf, hmem, hcells, hlatch⟩
  | none =>
    rcases step_running h with ⟨f, hfault, hstep⟩ | ⟨-, i, -, hstep⟩
    · obtain rfl := next_unique hstep ht
      refine ⟨hwf, hmem, hcells, fun rec hrec => ⟨f, ?_, (Option.some.inj hrec).symm⟩⟩
      exact (stepFault?_congr (s := s) rfl rfl rfl).trans hfault
    · obtain ⟨u, hu, humem, hulatch, hucfg⟩ := exec_next i s
      obtain rfl := next_unique (hstep.trans hu) ht
      refine ⟨hucfg ▸ hwf, humem ▸ hmem, ?_, fun rec hrec => ?_⟩
      · rw [CellsMapped, humem, hucfg]
        exact hcells
      · cases (hulatch.trans h).symm.trans hrec

/-! ### The pc after a step -/

/-- A running machine's step: the pc is 4 further on, or a fault is latched at it, or it is the target of a JALR. -/
theorem step_pc {s t : State} (h : s.latch = none) (ht : step s = .next t) :
    (t.latch = none ∧ t.pc = s.pc + 4#32) ∨ (t.latch.isSome = true ∧ t.pc = s.pc) ∨
      (t.latch = none ∧ ∃ rd rs1 imm, Fetches s (.jalr rd rs1 imm) ∧ t.pc = jumpTarget (s.readReg rs1) imm) := by
  rcases step_running h with ⟨f, -, hstep⟩ | ⟨-, i, hfetches, hstep⟩
  · obtain rfl := next_unique hstep ht
    exact .inr (.inl ⟨rfl, rfl⟩)
  · obtain ⟨u, hu, hlatch, hpc⟩ := exec_next_pc i s
    obtain rfl := next_unique (hstep.trans hu) ht
    by_cases hjalr : ∃ rd rs1 imm, i = .jalr rd rs1 imm
    · obtain ⟨rd, rs1, imm, rfl⟩ := hjalr
      exact .inr (.inr ⟨hlatch.trans h, rd, rs1, imm, hfetches, hpc⟩)
    · push Not at hjalr
      rw [target?_eq_none hjalr] at hpc
      exact .inl ⟨hlatch.trans h, hpc⟩

/-- The branch and JAL opcodes of RV32I are none of the six that the decoder dispatches on (R68, D1). -/
theorem decode_of_branch_or_jal {bits : Word} (h : opcodeOf bits = 0b1100011#7 ∨ opcodeOf bits = 0b1101111#7) :
    decode bits = .error (.unsupported bits) := by
  cases hd : decode bits with
  | error e => rw [decode_error hd]
  | ok i =>
    exfalso
    rcases decode_cases hd with ⟨hop, -⟩ | ⟨hop, -⟩ | ⟨hop, -⟩ | ⟨hop, -⟩ | ⟨hop, -⟩ | ⟨hop, -⟩ <;>
      simp [hop] at h

/-- Settles O4: the three outcomes of a running machine's step, the target as a number; and the opcodes that are not
there. -/
theorem onlyJalrLeavesTheStraightLine : Obligations.OnlyJalrLeavesTheStraightLine := by
  refine ⟨fun s t h ht => ?_, fun bits => decode_of_branch_or_jal⟩
  rcases step_pc h ht with hnext | hhalt | ⟨hlatch, rd, rs1, imm, hfetches, hpc⟩
  · exact .inl hnext
  · exact .inr (.inl hhalt)
  · exact .inr (.inr ⟨hlatch, rd, rs1, imm, hfetches, by rw [hpc, toNat_jumpTarget]⟩)

/-- The step of a machine that fetches an instruction is that instruction's. -/
theorem step_of_fetches {s : State} {i : Instr} (h : s.latch = none) (hi : Fetches s i) : step s = exec i s := by
  obtain ⟨bits, hf, hd⟩ := hi
  exact stepRunsTheDecodedInstruction s bits i h hf hd

/-- The step of a machine that fetches a JALR retires the link and the target (R170). -/
theorem step_jalr {s : State} {rd rs1 : RegIdx} {imm : Word} (h : s.latch = none)
    (hi : Fetches s (.jalr rd rs1 imm)) :
    step s = .next (s.retire rd (pcPlus4 s.pc) (some (jumpTarget (s.readReg rs1) imm))) :=
  (step_of_fetches h hi).trans (exec_eq_retire rfl s)

/-- Settles O20: a JALR retires its target as the pc, where the next fetch reads. -/
theorem nextFetchIsExactlyTheJalrTarget : Obligations.NextFetchIsExactlyTheJalrTarget := by
  rintro s rd rs1 imm target h hi rfl
  have hpc := retire_pc s rd (pcPlus4 s.pc) (some (jumpTarget (s.readReg rs1) imm))
  refine ⟨_, step_jalr h hi, by simp [h], hpc, by rw [fetch, hpc]; rfl, fun hrd => ?_⟩
  simp [readReg_retire, hrd, pcPlus4]

/-! ### The fault record on the port (R196, R197) -/

theorem faultPort_halted (s : State) : s.faultPort.halted = s.halted := by
  unfold State.faultPort State.halted
  split <;> simp [*]

/-- Settles O47: each fault's record, its absent field read as 0. -/
theorem faultPortShowsTheRecord : Obligations.FaultPortShowsTheRecord := by
  refine ⟨faultPort_halted, fun s bits h hf hd => ⟨_, step_decodeFault h hf hd, rfl⟩, fun s f h hf => ?_⟩
  obtain rfl := memRead_error hf
  exact ⟨_, step_fetchFault h hf, rfl⟩

/-! ## Runs -/

theorem run_of_step_self {s : State} (h : step s = .next s) (k : Nat) : run k s = .next s := by
  induction k with
  | zero => rfl
  | succ k ih => rw [run_step h, ih]

/-- Settles O41: the step of a halted machine answers the machine itself. -/
theorem haltedMachineNeverChanges : Obligations.HaltedMachineNeverChanges :=
  fun _ _ k h => run_of_step_self (step_halted h) k

/-- A JALR to its own address, with x0 as its link, changes nothing. -/
theorem step_self_jump {s : State} {rs1 : RegIdx} {imm : Word} (h : s.latch = none)
    (hi : Fetches s (.jalr 0#5 rs1 imm)) (hself : jumpTarget (s.readReg rs1) imm = s.pc) : step s = .next s := by
  rw [step_jalr h hi, hself, retire_eq_writeReg_commit, writeReg_zero]
  rfl

/-- Settles O46: the jump's step answers the machine itself. -/
theorem selfJumpRunsForever : Obligations.SelfJumpRunsForever := by
  intro s rs1 imm k h hi hself
  have htarget : jumpTarget (s.readReg rs1) imm = s.pc := BitVec.eq_of_toNat_eq ((toNat_jumpTarget _ _).trans hself)
  have hrun := run_of_step_self (step_self_jump h hi htarget) k
  exact ⟨hrun, s, hrun, halted_eq_false.2 h⟩

/-- Settles O45, by induction on the steps: the first step faults, and nothing changes any more, or it runs an
instruction, and the rest of the run halts precisely. -/
theorem everyHaltIsPrecise : Obligations.EveryHaltIsPrecise := by
  intro s t k rec h hrun hrec
  induction k generalizing s with
  | zero =>
    cases hrun
    cases h.symm.trans hrec
  | succ k ih =>
    rcases step_running h with ⟨f, hfault, hstep⟩ | ⟨-, i, -, hstep⟩
    · rw [run_step hstep, haltedMachineNeverChanges _ _ k rfl] at hrun
      obtain rfl := Host.Outcome.next.inj hrun
      obtain rfl := Option.some.inj hrec
      exact ⟨0, s, f, k.succ_pos, rfl, h, hfault, rfl, rfl⟩
    · obtain ⟨u, hu, -, hlatch, -⟩ := exec_next i s
      rw [run_step (hstep.trans hu)] at hrun
      obtain ⟨j, v, f, hj, hv, hfacts⟩ := ih u (hlatch.trans h) hrun
      exact ⟨j + 1, v, f, Nat.succ_lt_succ hj, by rw [run_step (hstep.trans hu), hv], hfacts⟩

/-- No run changes the bytes or the configuration. -/
theorem run_mem_cfg {k : Nat} {s t : State} (h : run k s = .next t) : t.mem = s.mem ∧ t.cfg = s.cfg := by
  refine run_keeps (P := fun u => u.mem = s.mem ∧ u.cfg = s.cfg) (fun u v hu hstep => ?_) k s t ⟨rfl, rfl⟩ h
  obtain ⟨v', hv', hmem, hcfg⟩ := step_next u
  obtain rfl := next_unique hv' hstep
  exact ⟨hmem.trans hu.1, hcfg.trans hu.2⟩

/-- Settles O54: the run keeps the configuration, which is all that reset reads. -/
theorem resetInputStartsANewRun : Obligations.ResetInputStartsANewRun := by
  intro c s t k hs ht
  obtain ⟨-, rfl⟩ := powerUp_next hs
  rw [assertReset, (run_mem_cfg ht).2]
  exact hs

end Sys2Proof.Machine

namespace Sys2Proof.Machine

/-! ## The router -/

/-! ### All outcomes of an access (R33 to R35, R40) -/

/-- In a sound configuration an access that lies in a region resolves to that region. -/
theorem regionAt_of_access {s : State} {r : Region} {a : Word} {w : Width} (hwf : s.cfg.wf = true)
    (hr : r ∈ s.cfg.regions) (hlo : r.base.toNat ≤ a.toNat) (hhi : a.toNat + w.bytes ≤ r.base.toNat + r.size) :
    regionAt s.cfg.regions a = some r ∧ r.holds a w.bytes = true := by
  have hpos := width_pos w
  have hc : r.contains a = true := (contains_iff r a).2 ⟨hlo, by omega⟩
  exact ⟨regionAt_of_config_wf hwf hr hc, (holds_of_contains hc).2 hhi⟩

/-- What the router resolves and finds inside is an access that lies in a region. -/
theorem access_of_regionAt {rs : List Region} {r : Region} {a : Word} {n : Nat} (hat : regionAt rs a = some r)
    (hin : r.holds a n = true) : r ∈ rs ∧ r.base.toNat ≤ a.toNat ∧ a.toNat + n ≤ r.base.toNat + r.size := by
  obtain ⟨hr, hc⟩ := regionAt_some hat
  exact ⟨hr, ((contains_iff r a).1 hc).1, (holds_of_contains hc).1 hin⟩

/-- In a sound configuration a read succeeds exactly when one region holds all its bytes. -/
theorem memRead_ok_iff {s : State} (hwf : s.cfg.wf = true) (a : Word) (w : Width) :
    (∃ v, memRead s a w = .ok v) ↔
      ∃ r ∈ s.cfg.regions, r.base.toNat ≤ a.toNat ∧ a.toNat + w.bytes ≤ r.base.toNat + r.size := by
  constructor
  · rintro ⟨v, h⟩
    obtain ⟨r, hat, hin, -⟩ := memRead_ok h
    exact ⟨r, access_of_regionAt hat hin⟩
  · rintro ⟨r, hr, hlo, hhi⟩
    obtain ⟨hat, hin⟩ := regionAt_of_access hwf hr hlo hhi
    exact ⟨_, memRead_inside hat hin⟩

/-- Everything a bus write can answer, in the order of its checks (D9). -/
theorem memWrite_cases (s : State) (a : Word) (w : Width) (v : Word) :
    (regionAt s.cfg.regions a = none ∧ memWrite s a w v = .fault (.addressFault a)) ∨
    (∃ r, regionAt s.cfg.regions a = some r ∧ r.policy = .ro ∧ memWrite s a w v = .fault (.writeProtectFault a)) ∨
    (∃ r, regionAt s.cfg.regions a = some r ∧ r.policy = .rw ∧ r.holds a w.bytes = true ∧
      memWrite s a w v = .next { s with mem := Memory.store s.mem a.toNat v w.bytes }) ∨
    (∃ r, regionAt s.cfg.regions a = some r ∧ r.policy = .rw ∧ r.holds a w.bytes = false ∧
      memWrite s a w v = .fault (.addressFault a)) := by
  cases hat : regionAt s.cfg.regions a with
  | none => exact .inl ⟨rfl, memWrite_unmapped hat w v⟩
  | some r =>
    right
    cases hp : r.policy with
    | ro => exact .inl ⟨r, rfl, hp, memWrite_readOnly hat hp w v⟩
    | rw =>
      right
      cases hin : r.holds a w.bytes with
      | true => exact .inl ⟨r, rfl, hp, hin, memWrite_inside hat hp hin v⟩
      | false => exact .inr ⟨r, rfl, hp, hin, by simp [memWrite, hat, hp, hin]⟩

theorem memWrite_protected_iff {s : State} (hwf : s.cfg.wf = true) (a : Word) (w : Width) (v : Word) :
    memWrite s a w v = .fault (.writeProtectFault a) ↔
      ∃ r ∈ s.cfg.regions, r.policy = .ro ∧ r.base.toNat ≤ a.toNat ∧ a.toNat < r.base.toNat + r.size := by
  constructor
  · intro h
    rcases memWrite_cases s a w v with ⟨-, he⟩ | ⟨r, hat, hro, -⟩ | ⟨r, -, -, -, he⟩ | ⟨r, -, -, -, he⟩
    · cases he.symm.trans h
    · obtain ⟨hr, hc⟩ := regionAt_some hat
      exact ⟨r, hr, hro, (contains_iff r a).1 hc⟩
    · cases he.symm.trans h
    · cases he.symm.trans h
  · rintro ⟨r, hr, hro, hc⟩
    exact memWrite_readOnly (regionAt_of_config_wf hwf hr ((contains_iff r a).2 hc)) hro w v

theorem memWrite_next_iff {s : State} (hwf : s.cfg.wf = true) (a : Word) (w : Width) (v : Word) :
    (∃ t, memWrite s a w v = .next t) ↔
      ∃ r ∈ s.cfg.regions, r.policy = .rw ∧ r.base.toNat ≤ a.toNat ∧
        a.toNat + w.bytes ≤ r.base.toNat + r.size := by
  constructor
  · rintro ⟨t, h⟩
    obtain ⟨r, hat, hrw, hin, -⟩ := memWrite_next h
    obtain ⟨hr, hbounds⟩ := access_of_regionAt hat hin
    exact ⟨r, hr, hrw, hbounds⟩
  · rintro ⟨r, hr, hrw, hlo, hhi⟩
    obtain ⟨hat, hin⟩ := regionAt_of_access hwf hr hlo hhi
    exact ⟨_, memWrite_inside hat hrw hin v⟩

theorem memWrite_trichotomy (s : State) (a : Word) (w : Width) (v : Word) :
    (∃ t, memWrite s a w v = .next t) ∨ memWrite s a w v = .fault (.writeProtectFault a) ∨
      memWrite s a w v = .fault (.addressFault a) := by
  rcases memWrite_cases s a w v with ⟨-, h⟩ | ⟨_, -, -, h⟩ | ⟨_, -, -, -, h⟩ | ⟨_, -, -, -, h⟩
  · exact .inr (.inr h)
  · exact .inr (.inl h)
  · exact .inl ⟨_, h⟩
  · exact .inr (.inr h)

/-- Settles O34: the read by its two rules, the write by its four. -/
theorem busOutcomesAreExactlyThese : Obligations.BusOutcomesAreExactlyThese :=
  fun s a w hwf => ⟨memRead_ok_iff hwf a w, fun _ => memRead_error,
    fun v => ⟨memWrite_protected_iff hwf a w v, memWrite_next_iff hwf a w v, memWrite_trichotomy s a w v⟩⟩

/-- Settles O42: the fetch is a read of four bytes, which can only fail by an AddressFault at the pc. -/
theorem fetchFaultOnlySetsTheLatch : Obligations.FetchFaultOnlySetsTheLatch := by
  intro s h hwf hout
  cases hf : fetch s with
  | ok bits => exact absurd ((memRead_ok_iff hwf s.pc .word).1 ⟨bits, hf⟩) hout
  | error f =>
    obtain rfl := memRead_error hf
    exact step_fetchFault h hf

/-! ### The order of the table (R32) -/

theorem disjointRegions_iff_pairwise (rs : List Region) :
    disjointRegions rs = true ↔ rs.Pairwise (fun r q => r.disjoint q = true) := by
  refine ⟨disjointRegions_pairwise, fun h => ?_⟩
  induction h with
  | nil => rfl
  | cons hr _ ih => simpa [disjointRegions, ih] using hr

theorem disjointRegions_perm {rs qs : List Region} (hp : qs.Perm rs) (h : disjointRegions rs = true) :
    disjointRegions qs = true := by
  rw [disjointRegions_iff_pairwise] at h ⊢
  exact (hp.pairwise_iff fun hd => (region_disjoint_comm _ _).trans hd).2 h

/-- A sound table resolves every address alike in every order. -/
theorem regionAt_perm {rs qs : List Region} (hp : qs.Perm rs) (h : disjointRegions rs = true) (a : Word) :
    regionAt qs a = regionAt rs a := by
  cases hat : regionAt rs a with
  | none => exact regionAt_none.2 fun r hr => regionAt_none.1 hat r (hp.mem_iff.1 hr)
  | some r =>
    obtain ⟨hr, hc⟩ := regionAt_some hat
    exact regionAt_of_contains (disjointRegions_perm hp h) (hp.mem_iff.2 hr) hc

/-- Settles O35: both tables resolve every address alike, and a read asks the table nothing else. -/
theorem regionOrderChangesNoAnswer : Obligations.RegionOrderChangesNoAnswer := by
  intro s u hwf hmem hp
  obtain ⟨-, hdisjoint, -⟩ := (config_wf_iff _).1 hwf
  have hsame := regionAt_perm hp hdisjoint
  refine ⟨fun r a hr hlo hhi => ?_, fun a w => ?_⟩
  · have hat := regionAt_of_config_wf hwf hr ((contains_iff r a).2 ⟨hlo, hhi⟩)
    exact ⟨hat, (hsame a).trans hat⟩
  · rw [memRead, memRead, hsame, hmem]

/-! ### The bytes of a read and of a write (R36, R37) -/

/-- A number modulo `256 ^ n` is the weighted sum of its `n` low digits in base 256. -/
theorem sum_digits (x n : Nat) :
    ((List.range n).map fun k => x / 256 ^ k % 256 * 2 ^ (8 * k)).sum = x % 256 ^ n := by
  induction n with
  | zero => simp [Nat.mod_one]
  | succ n ih =>
    have hpow : 2 ^ (8 * n) = 256 ^ n := Nat.pow_mul 2 8 n
    rw [List.sum_range_succ, ih, hpow, Nat.mod_pow_succ, Nat.mul_comm (256 ^ n)]

theorem toNat_byte_of_word (v : Word) (k : Nat) :
    ((v >>> (8 * k)) &&& 0xFF#32).toNat = v.toNat / 256 ^ k % 256 := by
  have h := congrArg BitVec.toNat (ofNat_digits v k (n := 1) (by decide))
  rw [BitVec.toNat_ofNat, Nat.mod_eq_of_lt] at h
  · exact h.symm
  · exact (Nat.mod_lt _ (by decide)).trans (by decide)

/-- Settles O31: the bytes are the digits of the value in base 256, which is below 256 to the width. -/
theorem readIsTheSumOfItsBytes : Obligations.ReadIsTheSumOfItsBytes := by
  intro s a v w hwf h
  have hlt : v.toNat < 256 ^ w.bytes := by
    rw [toNat_memRead h]
    exact Memory.loadNat_lt ..
  refine ⟨fun k => (v >>> (8 * k)) &&& 0xFF#32, fun k hk => memRead_byte_of_access hwf h hk, ?_, ?_⟩
  · simp only [toNat_byte_of_word, sum_digits]
    exact (Nat.mod_eq_of_lt hlt).symm
  · rw [Nat.pow_mul]
    exact hlt

/-- The low byte of a word, as a word. -/
theorem zeroExtend_low_byte (x : Word) : (x.extractLsb' 0 8).zeroExtend 32 = x &&& 0xFF#32 := by
  have hlt : x.toNat % 2 ^ 8 < 2 ^ 32 := by omega
  apply BitVec.eq_of_toNat_eq
  rw [BitVec.toNat_and, BitVec.toNat_setWidth, BitVec.extractLsb'_toNat, Nat.shiftRight_zero, Nat.mod_eq_of_lt hlt]
  exact (Nat.and_two_pow_sub_one_eq_mod x.toNat 8).symm

/-- Settles O37: the write covers the bytes of the access and no other. -/
theorem busWriteChangesOnlyItsBytes : Obligations.BusWriteChangesOnlyItsBytes := by
  intro s t a v w hwf hm h
  obtain ⟨r, hat, -, hin, rfl⟩ := memWrite_next h
  refine ⟨fun k hk => ?_, fun b hb => ?_, fun _ => rfl, rfl, rfl, rfl⟩
  · obtain ⟨hak, -, -⟩ := access_part hwf hat hin le_rfl hk
    have hcovers : writtenByte? (a, w, v) (a + BitVec.ofNat 32 k) = some ((v >>> (8 * k)).extractLsb' 0 8) := by
      simp [writtenByte?, hak, hk]
    rw [memRead_memWrite hm h, hcovers, Option.elim_some, zeroExtend_low_byte]
  · have hout : writtenByte? (a, w, v) b = none := if_neg (by simp only; omega)
    rw [memRead_memWrite hm h, hout, Option.elim_none]

/-- Settles O39: the cells of a store are old ones or inside the access, hence inside its region. -/
theorem busWriteKeepsTheStorageForm : Obligations.BusWriteKeepsTheStorageForm := by
  intro s t a v w hwf hm hcells h
  refine ⟨memWrite_cfg h ▸ hwf, memWrite_keeps_wf hm h, ?_⟩
  obtain ⟨r, hat, -, hin, rfl⟩ := memWrite_next h
  obtain ⟨hr, -⟩ := regionAt_some hat
  rw [holds_iff] at hin
  intro c hc
  rcases Memory.mem_store hc with hnew | hold
  · exact ⟨r, hr, by omega, by omega⟩
  · exact hcells c hold

/-! ### Alignment (R39) -/

/-- Only a JALR makes a pc that is not a multiple of 4, and its target is even. -/
theorem misaligned_pc_of_step {s t : State} (ht : step s = .next t) (hs : s.pc.toNat % 4 = 0)
    (hmis : t.pc.toNat % 4 ≠ 0) : t.pc.toNat % 4 = 2 ∧ ∃ rd rs1 imm, Fetches s (.jalr rd rs1 imm) := by
  cases h : s.latch with
  | some rec =>
    obtain rfl := next_unique (step_halted h) ht
    exact absurd hs hmis
  | none =>
    rcases step_pc h ht with ⟨-, hpc⟩ | ⟨-, hpc⟩ | ⟨-, rd, rs1, imm, hfetches, hpc⟩
    · rw [hpc, BitVec.toNat_add, BitVec.toNat_ofNat] at hmis
      omega
    · exact absurd (hpc ▸ hs) hmis
    · rw [hpc, toNat_jumpTarget] at hmis ⊢
      exact ⟨by omega, rd, rs1, imm, hfetches⟩

/-- Settles O36: the outcomes of an access do not ask about alignment; the pc by the outcomes of a step. -/
theorem noAlignmentIsRequired : Obligations.NoAlignmentIsRequired := by
  refine ⟨fun s r a w hwf hr hlo hhi => ⟨?_, fun hrw v => ?_, fun hfetch => ?_⟩,
    fun s t => misaligned_pc_of_step⟩
  · exact (memRead_ok_iff hwf a w).2 ⟨r, hr, hlo, hhi⟩
  · exact (memWrite_next_iff hwf a w v).2 ⟨r, hr, hrw, hlo, hhi⟩
  · obtain ⟨v, hv⟩ := (memRead_ok_iff hwf a .word).2 ⟨r, hr, hlo, hfetch⟩
    exact ⟨v, hv, fun k hk => memRead_byte_of_access (w := .word) hwf hv hk⟩

/-! ## Power-up -/

/-! ### The configurations that power up (R6, R31) -/

theorem powerUp_eq_boot {c : Config} (h : c.wf = true) : powerUp c = .next (State.boot c) := if_pos h

theorem powerUp_next_iff (c : Config) : (∃ t, powerUp c = .next t) ↔ c.wf = true :=
  ⟨fun ⟨_, h⟩ => (powerUp_next h).1, fun h => ⟨_, powerUp_eq_boot h⟩⟩

theorem region_wf_iff (r : Region) :
    r.wf = true ↔ 1 ≤ r.size ∧ r.base.toNat + r.size ≤ 2 ^ 32 ∧
      ∀ bytes, r.image = some bytes → r.policy = .ro ∧ bytes.length = r.size := by
  constructor
  · exact fun h => ⟨(region_bounds h).1, (region_bounds h).2, fun _ => region_image h⟩
  · rintro ⟨hsize, htop, himage⟩
    simp only [Region.wf, hsize, htop, decide_true, Bool.true_and]
    cases hi : r.image with
    | none => cases r.policy <;> rfl
    | some bytes =>
      obtain ⟨hro, hlen⟩ := himage bytes hi
      simp [hro, hlen]

/-- Two regions, neither of them empty, do not overlap exactly when no address lies in both. -/
theorem region_disjoint_iff {r q : Region} (hr : 1 ≤ r.size) (hq : 1 ≤ q.size) :
    r.disjoint q = true ↔ ∀ n : Nat,
      ¬((r.base.toNat ≤ n ∧ n < r.base.toNat + r.size) ∧
        (q.base.toNat ≤ n ∧ n < q.base.toNat + q.size)) := by
  simp only [Region.disjoint, Bool.or_eq_true, decide_eq_true_eq]
  constructor
  · intro h n
    omega
  · intro h
    have hbase := h r.base.toNat
    have hbase' := h q.base.toNat
    omega

/-- Settles O53: the configuration check, part by part. -/
theorem powerUpRefusesExactlyIllFormedConfigurations :
    Obligations.PowerUpRefusesExactlyIllFormedConfigurations := by
  intro c
  refine ⟨?_, fun h => if_neg fun hwf => h ((powerUp_next_iff c).2 hwf)⟩
  rw [powerUp_next_iff, config_wf_iff, disjointRegions_iff_pairwise]
  simp only [← region_wf_iff]
  refine and_congr_right fun hregions => and_congr_left' (List.Pairwise.iff_of_mem fun hr hq => ?_)
  exact region_disjoint_iff (region_bounds (hregions _ hr)).1 (region_bounds (hregions _ hq)).1

/-! ### The state after power-up (R222 to R226) -/

/-- Every byte stored for a sound table lies in a region. -/
theorem romStorage_mapped {rs : List Region} (hwf : ∀ r ∈ rs, r.wf = true) {c : Host.Cell} (hc : c ∈ romStorage rs) :
    ∃ r ∈ rs, r.base.toNat ≤ c.1 ∧ c.1 < r.base.toNat + r.size := by
  induction rs with
  | nil => cases hc
  | cons r rs ih =>
    rw [List.forall_mem_cons] at hwf
    have hlen := image_length_le hwf.1
    rw [romStorage_cons hwf.1] at hc
    rcases Memory.mem_storeBytes hc with hin | hc
    · exact ⟨r, List.mem_cons_self, by omega, by omega⟩
    · obtain ⟨q, hq, hbounds⟩ := ih hwf.2 hc
      exact ⟨q, List.mem_cons_of_mem r hq, hbounds⟩

theorem boot_inv {c : Config} (hwf : c.wf = true) : (State.boot c).Inv := by
  obtain ⟨hregions, -, -⟩ := (config_wf_iff c).1 hwf
  exact ⟨hwf, wf_romStorage c.regions, fun _ => romStorage_mapped hregions, nofun⟩

/-- Settles O50: only images are stored, inside their regions, and the latch is clear. -/
theorem powerUpMeetsTheInvariant : Obligations.PowerUpMeetsTheInvariant := by
  intro c t h
  obtain ⟨hwf, rfl⟩ := powerUp_next h
  exact boot_inv hwf

/-- Settles O49: the reset state is a power-up. -/
theorem resetMeetsTheInvariant : Obligations.ResetMeetsTheInvariant := by
  rw [Obligations.ResetMeetsTheInvariant, reset_eq_boot]
  exact boot_inv (by decide)

theorem boot_resetBytes {c : Config} (hwf : c.wf = true) : ResetBytes (State.boot c) := by
  intro r hr k hk
  obtain ⟨hregions, -, -⟩ := (config_wf_iff c).1 hwf
  obtain ⟨-, htop⟩ := region_bounds (hregions r hr)
  have haddr : (BitVec.ofNat 32 (r.base.toNat + k)).toNat = r.base.toNat + k := by
    rw [BitVec.toNat_ofNat]
    omega
  have hc : r.contains (BitVec.ofNat 32 (r.base.toNat + k)) = true := by
    rw [contains_iff, haddr]
    omega
  rw [memRead_boot_byte hwf hr hc, haddr, Nat.add_sub_cancel_left]

/-- Settles O52: the bytes are those of the images, the registers those of the configuration. -/
theorem powerUpLoadsTheImageAndRuns : Obligations.PowerUpLoadsTheImageAndRuns := by
  intro c t h
  obtain ⟨hwf, rfl⟩ := powerUp_next h
  exact ⟨boot_resetBytes hwf, rfl, rfl, readReg_zero _, readReg_boot_succ c⟩

/-- Settles O55: a run keeps the bytes and the configuration that power-up left. -/
theorem noRunChangesMemory : Obligations.NoRunChangesMemory := by
  intro c s t k hs ht
  obtain ⟨hwf, rfl⟩ := powerUp_next hs
  obtain ⟨hmem, hcfg⟩ := run_mem_cfg ht
  have hsame : SameBytes (State.boot c) t := fun a => memRead_congr hcfg hmem a .byte
  refine ⟨fun r hr k hk => ?_, hcfg, hsame⟩
  rw [hsame]
  exact boot_resetBytes hwf r (hcfg ▸ hr) k hk

/-! ### The example map (R44) -/

/-- The one read-only and the one read-write region of the example. -/
theorem mem_reset_regions (r : Region) :
    r ∈ State.reset.cfg.regions ↔
      r = ⟨0x00001000#32, 4096, .ro, none⟩ ∨ r = ⟨0x80000000#32, 1048576, .rw, none⟩ := by
  simp [State.reset, Config.example1]

theorem reset_cfg_wf : State.reset.cfg.wf = true := by decide

/-- A byte of the reset state: zero in both regions, else unmapped. -/
theorem memRead_reset (a : Word) :
    memRead State.reset a .byte =
      if (0x1000 ≤ a.toNat ∧ a.toNat ≤ 0x1FFF) ∨ (0x80000000 ≤ a.toNat ∧ a.toNat ≤ 0x800FFFFF) then .ok 0#32
      else .error (.addressFault a) := by
  cases hat : regionAt State.reset.cfg.regions a with
  | none =>
    have hout := regionAt_none.1 hat
    have hrom := hout _ ((mem_reset_regions _).2 (.inl rfl))
    have hram := hout _ ((mem_reset_regions _).2 (.inr rfl))
    rw [Bool.eq_false_iff, ne_eq, contains_iff] at hrom hram
    simp only [BitVec.toNat_ofNat] at hrom hram
    rw [memRead_unmapped hat, if_neg (by omega)]
  | some r =>
    obtain ⟨hr, hc⟩ := regionAt_some hat
    rw [contains_iff] at hc
    rw [memRead_byte hat, if_pos]
    · rfl
    · rcases (mem_reset_regions r).1 hr with rfl | rfl <;> simp only [BitVec.toNat_ofNat] at hc <;> omega

/-- Settles O56: the bytes by the two regions, the writes by the outcomes of the bus. -/
theorem resetStateHasTheExampleMap : Obligations.ResetStateHasTheExampleMap := by
  refine ⟨rfl, rfl, fun a => ⟨memRead_reset a, fun v => ⟨?_, ?_⟩⟩⟩
  · rw [memWrite_protected_iff reset_cfg_wf]
    simp only [mem_reset_regions, or_and_right, exists_or, exists_eq_left, reduceCtorEq, true_and, false_and,
      or_false, BitVec.toNat_ofNat]
    omega
  · rw [memWrite_next_iff reset_cfg_wf]
    simp only [mem_reset_regions, or_and_right, exists_or, exists_eq_left, reduceCtorEq, true_and, false_and,
      false_or, BitVec.toNat_ofNat, Width.bytes]
    omega

end Sys2Proof.Machine
